-- ==== Sys2Proof/Word.lean ====
section
/-! DEFINITION. The widths the spec fixes (00_scope.md R6, R8) and the one rounding-up division of its notation. -/

namespace Sys2Proof

/-- A wire-buffer byte, a channel byte, an 8-bit host access. -/
abbrev Byte := BitVec 8

/-- CUR_PER_CH[15:0] (10_state.md R25). -/
abbrev Half := BitVec 16

/-- A host register, a host address, a command word (R20, R60, R90). -/
abbrev Word := BitVec 32

/-- `ceil(a / b) = floor((a + b - 1) / b)` (R8). -/
def ceilDiv (a b : Nat) : Nat := (a + b - 1) / b

end Sys2Proof
end

