-- ==== Sys2Proof/Syntax.lean ====
section
/-! DEFINITION. The six commands of the opcode map (30_encoding.md R91). A command word has no operand field (R90):
operands are read from the registers R94 names, so no constructor carries data. -/

namespace Sys2Proof

inductive Instr where
  | nop
  | remap
  | encode
  | limit
  | render
  | frame
  deriving DecidableEq, Repr

end Sys2Proof
end

