-- ==== Sys2Proof/WellFormed.lean ====
section
/-! DEFINITION. What makes a command well formed. The syntax carries no operand, so every `Instr` is well formed;
a command WORD is well formed when its reserved field is zero and its opcode is one of the six (30_encoding.md R90, R93). -/

namespace Sys2Proof

/-- R90: no immediate and no register field, so nothing to check. -/
def Instr.wf : Instr → Bool
  | .nop => true
  | .remap => true
  | .encode => true
  | .limit => true
  | .render => true
  | .frame => true

/-- R90: RSV, bits [31:4], "must be 0". -/
def reservedFieldZero (v : Word) : Bool := v.extractLsb' 4 28 == 0#28

/-- R91: OP, bits [3:0], is one of 0x0 to 0x5. -/
def opcodeDefined (v : Word) : Bool := (v.extractLsb' 0 4).toNat ≤ 5

/-- R93: the words that are not reserved or illegal. -/
def commandWordWf (v : Word) : Bool := reservedFieldZero v && opcodeDefined v

end Sys2Proof
end

