-- ==== Sys2Proof/Decode.lean ====
section
/-! DEFINITION. Decoding a word written to CMD (30_encoding.md R90-R93), total on all 32-bit values, and the encoder. -/

namespace Sys2Proof

/-- Why a command word is refused (R93). Either reason is the IllegalCommand error (60_exceptions.md R201). -/
inductive Reject where
  /-- RSV, bits [31:4], is not zero. -/
  | reservedField (rsv : BitVec 28)
  /-- RSV is zero and OP is 0x6 to 0xF. -/
  | reservedOpcode (op : BitVec 4)
  deriving DecidableEq, Repr

inductive DecodeResult where
  | command (i : Instr)
  | reject (r : Reject)
  deriving DecidableEq, Repr

/-- OP, bits [3:0] (R90). -/
def opField (v : Word) : BitVec 4 := v.extractLsb' 0 4

/-- RSV, bits [31:4] (R90). -/
def rsvField (v : Word) : BitVec 28 := v.extractLsb' 4 28

/-- The opcode map (R91). -/
def decodeOp (op : BitVec 4) : DecodeResult :=
  match op.toNat with
  | 0x0 => .command .nop
  | 0x1 => .command .remap
  | 0x2 => .command .encode
  | 0x3 => .command .limit
  | 0x4 => .command .render
  | 0x5 => .command .frame
  | _ => .reject (.reservedOpcode op)

/-- R92: the RSV check first, then the case on OP. -/
def decode (v : Word) : DecodeResult :=
  if rsvField v = 0#28 then decodeOp (opField v) else .reject (.reservedField (rsvField v))

/-- The OP column of R91. -/
def opcode : Instr → BitVec 4
  | .nop => 0x0#4
  | .remap => 0x1#4
  | .encode => 0x2#4
  | .limit => 0x3#4
  | .render => 0x4#4
  | .frame => 0x5#4

/-- The command word: `{RSV, OP}` with RSV = 0 (R90). -/
def encode (i : Instr) : Word := 0#28 ++ opcode i

/-- A table word of `nbits` bits as the 32-bit command word it stands for. Every command is exactly one 32-bit word
(R90, R98), so a longer word is none; in a shorter one the bits above `nbits` are 0. -/
def tableWord (nbits w : Nat) : Word := BitVec.ofNat 32 (w % 2 ^ nbits)

/-- What the decoder reads from a word of the opcode table. -/
def decodeTableWord (nbits w : Nat) : Option Instr :=
  if nbits ≤ 32 then
    match decode (tableWord nbits w) with
    | .command i => some i
    | .reject _ => none
  else none

end Sys2Proof
end

