-- ==== Sys2Proof/Config.lean ====
section
/-! DEFINITION. The parameters of 00_scope.md R6, fixed for one block and left OPEN by the spec (D17, D24). -/

namespace Sys2Proof

/-- R6: "Parameters the model takes as arguments". -/
structure Config where
  /-- NMAX, "OPEN, an integer in [0, 65535]": the largest LED count LED_COUNT accepts. -/
  nmax : Fin 65536
  /-- MIN_FRAME_INTERVAL, OPEN, in a unit the spec does not fix. R245: "No rule of the block's state depends on the
  interval": no definition of the model reads it. -/
  minFrameInterval : Nat
  deriving DecidableEq, Repr, Inhabited

/-- The block at hand: its two parameters are not known, and nothing can prove a value of them (log 3). -/
opaque Config.block : Config

end Sys2Proof
end

