-- ==== Sys2Proof/Machine/State.lean ====
section
/-! DEFINITION. The architectural state (10_state.md R20), the accesses of the host port (20_memory.md R61), and reset
(70_reset_and_hazards.md R230). -/

namespace Sys2Proof.Machine

/-- The ten host registers of the register page (10_state.md R21). -/
inductive Reg where
  | cmd
  | status
  | ledCount
  | curPerCh
  | budget
  | arg0
  | arg1
  | arg2
  | res0
  | bufLen
  deriving DecidableEq, Repr

/-- One Color: three 8-bit channels, "no alpha in the wire model" (10_state.md R30). -/
structure Color where
  r : Byte
  g : Byte
  b : Byte
  deriving DecidableEq, Repr

/-- The reset value of a pixel: R = G = B = 0 (R30). -/
def Color.black : Color := ⟨0, 0, 0⟩

/-- The four kinds of host access; "No other width exists" (20_memory.md R61). -/
inductive Access where
  /-- `MemRead(addr, 1)` -/
  | read8 (addr : Word)
  /-- `MemRead(addr, 4)` -/
  | read32 (addr : Word)
  /-- `MemWrite(addr, 1, v)` -/
  | write8 (addr : Word) (v : Byte)
  /-- `MemWrite(addr, 4, v)` -/
  | write32 (addr : Word) (v : Word)
  deriving DecidableEq, Repr

/-- What reaches the block from outside: a host access, or the reset event (70_reset_and_hazards.md R230, log 5). -/
inductive PortEvent where
  | access (a : Access)
  | reset
  deriving DecidableEq, Repr

/-- The data the block returns to a read, of the read's own width (R61). -/
inductive Reply where
  | byte (v : Byte)
  | word (v : Word)
  deriving DecidableEq, Repr

/-- The three kinds of error (60_exceptions.md R200). The argument is the one the rules' pseudocode writes after
`raise`; it only documents the check and is not recorded (R201, R202, R203). -/
inductive BlockError where
  | illegalCommand (cmd : Word)
  | rangeError (what : Reg)
  | busError (addr : Word)
  deriving DecidableEq, Repr

/-- Reasons for the machine to stop with a fault. There is none: "No trap exists" and "Error bits set in STATUS do not
stop the block" (60_exceptions.md R206); every error is a next state (R201 to R203). See log 10 (safe). -/
inductive Fault where
  deriving DecidableEq, Repr

/-- Reasons for the model to have no meaning for a step. -/
inductive Refusal where
  /-- Raised by an arm of `exec` whose command has no meaning yet. Every command has its meaning, so no arm raises it
  (safe: it would only leave out behaviour). -/
  | notModelled (mnemonic : String)
  deriving DecidableEq, Repr

/-- A memory as a list of (index, value) pairs in one canonical form: indexes strictly rising, and no entry equal to what
an unlisted index reads as (`Memory.wf`). With bytes an entry is a `Host.Cell`. -/
abbrev Memory (α : Type) := List (Nat × α)

/-- 10_state.md R20, items (1) to (3), and three fields of the model's own: `cfg`, `pending`, `replies`. CMD and BUF_LEN
keep no value (R22, R29), and the length of the wire buffer is a function of LED_COUNT (R31): none of them is a field. -/
structure State where
  /-- The block's parameters (00_scope.md R6). The model's own field; no step changes it (log 3). -/
  cfg : Config
  /-- STATUS, read and written whole; `Flags.lean` names its fields (R23). -/
  status : Word
  /-- LED_COUNT, N (R24). -/
  ledCount : Word
  /-- CUR_PER_CH[15:0], K (R25). -/
  curPerCh : Half
  /-- BUDGET (R26). -/
  budget : Word
  /-- ARG0 (R27). -/
  arg0 : Word
  /-- ARG1 (R27). -/
  arg1 : Word
  /-- ARG2 (R27). -/
  arg2 : Word
  /-- RES0 (R28). -/
  res0 : Word
  /-- The pixel RAM, by LED index; an unlisted entry is black (R30, log 6). -/
  pix : Memory Color
  /-- The wire buffer, by byte index; an unlisted byte is 0 (R31, log 6). -/
  wb : List Host.Cell
  /-- What the host has issued and the block has not yet performed, oldest first. The model's own field (log 1). -/
  pending : List PortEvent
  /-- What the block has returned to the host's reads, oldest first. The model's own field (log 2). -/
  replies : List Reply
  deriving DecidableEq, Repr

/-- The state of R230 in a block with parameters `c`: "No value is left unspecified". -/
def State.resetWith (c : Config) : State :=
  { cfg := c
    status := 0
    ledCount := 0
    curPerCh := 0
    budget := 0
    arg0 := 0
    arg1 := 0
    arg2 := 0
    res0 := 0
    pix := []
    wb := []
    pending := []
    replies := [] }

/-- The block right after reset, waiting for host accesses (R230, R231). -/
def State.reset : State := State.resetWith Config.block

end Sys2Proof.Machine
end

