-- ==== Sys2Proof/Machine/Flags.lean ====
section
/-! DEFINITION. The STATUS register field by field (10_state.md R23), how an error is recorded in it (60_exceptions.md
R201 to R203) and how a host write clears it (R23, R207). -/

namespace Sys2Proof.Machine

/-- Bit positions of R23. -/
abbrev errIllegalBit : Nat := 0
abbrev errRangeBit : Nat := 1
abbrev errBusBit : Nat := 2
abbrev limitedBit : Nat := 4
abbrev frameValidBit : Nat := 5

/-- `w` with bit `i` made `b`. -/
def putBit (i : Nat) (b : Bool) (w : Word) : Word :=
  if b then w ||| BitVec.twoPow 32 i else w &&& ~~~BitVec.twoPow 32 i

/-- CAUSE, bits [11:8] (R23). -/
def causeField (w : Word) : BitVec 4 := w.extractLsb' 8 4

/-- `w` with CAUSE made `c`. -/
def putCause (c : BitVec 4) (w : Word) : Word :=
  (w &&& ~~~0x00000F00#32) ||| (c.setWidth 32 <<< 8)

/-- The STATUS bit of an error (60_exceptions.md R200). -/
def BlockError.statusBit : BlockError → Nat
  | .illegalCommand _ => errIllegalBit
  | .rangeError _ => errRangeBit
  | .busError _ => errBusBit

/-- The CAUSE code of an error (R200). -/
def BlockError.causeCode : BlockError → BitVec 4
  | .illegalCommand _ => 1
  | .rangeError _ => 2
  | .busError _ => 3

/-- STATUS after an error: its bit set, CAUSE its code, the rest as before (R201, R202, R203). -/
def statusAfterError (e : BlockError) (w : Word) : Word :=
  putCause e.causeCode (putBit e.statusBit true w)

/-- No error bit is set: `STATUS[2:0] == 0` (R23). -/
def noErrorBits (w : Word) : Bool :=
  !w.getLsbD errIllegalBit && !w.getLsbD errRangeBit && !w.getLsbD errBusBit

/-- One W1C bit under a write of `v`: `STATUS[i] <- STATUS[i] and not v[i]` (R23). -/
def clearBit1 (i : Nat) (v w : Word) : Word := putBit i (w.getLsbD i && !v.getLsbD i) w

/-- STATUS after a host write of `v`: the three error bits are W1C, and CAUSE returns to 0 when none is left (R23). -/
def statusAfterWrite (v w : Word) : Word :=
  let w' := clearBit1 errBusBit v (clearBit1 errRangeBit v (clearBit1 errIllegalBit v w))
  if noErrorBits w' then putCause 0 w' else w'

def State.errIllegal (s : State) : Bool := s.status.getLsbD errIllegalBit
def State.errRange (s : State) : Bool := s.status.getLsbD errRangeBit
def State.errBus (s : State) : Bool := s.status.getLsbD errBusBit
def State.limited (s : State) : Bool := s.status.getLsbD limitedBit
def State.frameValid (s : State) : Bool := s.status.getLsbD frameValidBit
def State.cause (s : State) : BitVec 4 := causeField s.status

end Sys2Proof.Machine
end

