-- ==== Sys2Proof/Machine/Ops.lean ====
section
/-! DEFINITION. The named operations over memory and registers, the one way an error is taken (`raise`, 60_exceptions.md
R206) and the one way back (`clearErrors`, R207). -/

namespace Sys2Proof.Machine

/-! ### Memories, with `d` the value an unlisted index reads as -/

/-- The value at index `a`. -/
def Memory.read {α : Type} (d : α) : Memory α → Nat → α
  | [], _ => d
  | (k, v) :: rest, a => if k = a then v else Memory.read d rest a

section
variable {α : Type} [DecidableEq α]

/-- The memory with `v` at index `a`; writing `d` takes the entry out. -/
def Memory.write (d : α) : Memory α → Nat → α → Memory α
  | [], a, v => if v = d then [] else [(a, v)]
  | (k, w) :: rest, a, v =>
    if a < k then (if v = d then (k, w) :: rest else (a, v) :: (k, w) :: rest)
    else if a = k then (if v = d then rest else (a, v) :: rest)
    else (k, w) :: Memory.write d rest a v

/-- The memory whose values from index `a` on are the list's, and `d` elsewhere. -/
def Memory.ofList (d : α) : Nat → List α → Memory α
  | _, [] => []
  | a, v :: vs => if v = d then Memory.ofList d (a + 1) vs else (a, v) :: Memory.ofList d (a + 1) vs

/-- Every value replaced by `f` of its index and itself, in one pass over the listed entries. Where `f` keeps `d` at every
index this is `f` at every index (log 7). -/
def Memory.update (d : α) (f : Nat → α → α) : Memory α → Memory α
  | [] => []
  | (k, v) :: rest =>
    if f k v = d then Memory.update d f rest else (k, f k v) :: Memory.update d f rest

/-- Every index of the list is `lo` or more, strictly rising, and no value is `d`. -/
def Memory.wfFrom (d : α) : Nat → Memory α → Bool
  | _, [] => true
  | lo, (k, v) :: rest => decide (lo ≤ k) && decide (v ≠ d) && Memory.wfFrom d (k + 1) rest

/-- The canonical form: indexes strictly rising, no entry equal to `d`. Equal memories are then equal lists. -/
def Memory.wf (d : α) (m : Memory α) : Bool := Memory.wfFrom d 0 m

end

/-! ### The machine's two memories -/

/-- N, the value of LED_COUNT (00_scope.md R11). -/
def State.count (s : State) : Nat := s.ledCount.toNat

/-- `WB[j]` (10_state.md R31). -/
def State.wireByte (s : State) (j : Nat) : Byte := Memory.read 0 s.wb j

/-- `PIX[i]` (R30). -/
def State.pixel (s : State) (i : Nat) : Color := Memory.read Color.black s.pix i

/-- `fillerLen(N) = ceil(N/16) + 1` (43_frame_packer.md R170). -/
def fillerLen (n : Nat) : Nat := ceilDiv n 16 + 1

/-- `bufferLen(N) = 4*(N+1) + ceil(N/16) + 1` (R170). -/
def bufferLen (n : Nat) : Nat := 4 * (n + 1) + ceilDiv n 16 + 1

/-! ### Named single-field updates (their lemmas: Laws/State.lean) -/

def State.setStatus (s : State) (w : Word) : State := { s with status := w }
def State.setRes0 (s : State) (w : Word) : State := { s with res0 := w }
def State.setWire (s : State) (m : List Host.Cell) : State := { s with wb := m }
def State.setPixels (s : State) (m : Memory Color) : State := { s with pix := m }
def State.setPending (s : State) (es : List PortEvent) : State := { s with pending := es }

/-- The block returns `r` to the host (log 2). -/
def State.reply (s : State) (r : Reply) : State := { s with replies := s.replies ++ [r] }

/-- STATUS.LIMITED <- b. -/
def State.setLimited (s : State) (b : Bool) : State := s.setStatus (putBit limitedBit b s.status)

/-- STATUS.FRAME_VALID <- b. -/
def State.setFrameValid (s : State) (b : Bool) : State := s.setStatus (putBit frameValidBit b s.status)

/-! ### Errors -/

/-- Taking an error: "no state is saved; no mode changes; no control transfer takes place; no vector is read"
(60_exceptions.md R206). Only STATUS records it (R201, R202, R203). -/
def raise (e : BlockError) (s : State) : State := s.setStatus (statusAfterError e s.status)

/-- The way back: a STATUS write with ones in the positions to clear (R207, 10_state.md R23). -/
def clearErrors (v : Word) (s : State) : State := s.setStatus (statusAfterWrite v s.status)

/-! ### Registers -/

/-- The register map (10_state.md R21). -/
def Reg.offset : Reg → Word
  | .cmd => 0x00#32
  | .status => 0x04#32
  | .ledCount => 0x08#32
  | .curPerCh => 0x0C#32
  | .budget => 0x10#32
  | .arg0 => 0x14#32
  | .arg1 => 0x18#32
  | .arg2 => 0x1C#32
  | .res0 => 0x20#32
  | .bufLen => 0x24#32

/-- The ten registers, in address order. -/
def allRegs : List Reg :=
  [.cmd, .status, .ledCount, .curPerCh, .budget, .arg0, .arg1, .arg2, .res0, .bufLen]

/-- The value a 32-bit read of a register returns (10_state.md R22 to R29). -/
def readReg (r : Reg) (s : State) : Word :=
  match r with
  | .cmd => 0
  | .status => s.status
  | .ledCount => s.ledCount
  | .curPerCh => s.curPerCh.setWidth 32
  | .budget => s.budget
  | .arg0 => s.arg0
  | .arg1 => s.arg1
  | .arg2 => s.arg2
  | .res0 => s.res0
  | .bufLen => BitVec.ofNat 32 (bufferLen s.count)

/-- A host write of `v` to LED_COUNT (10_state.md R24): out of range, the same N, or a new N, which clears both memories
and the two frame flags. -/
def writeLedCount (v : Word) (s : State) : State :=
  if v.toNat > s.cfg.nmax.val then raise (.rangeError .ledCount) s
  else if v = s.ledCount then s
  else ({ s with ledCount := v, pix := [], wb := [] }.setFrameValid false).setLimited false

/-- A host write of `v` to CUR_PER_CH: `v[15:0]` is stored, `v[31:16]` ignored (R25). -/
def writeCurPerCh (v : Word) (s : State) : State := { s with curPerCh := v.extractLsb' 0 16 }

/-- A host write to BUDGET "stores all 32 bits" (R26). -/
def writeBudget (v : Word) (s : State) : State := { s with budget := v }

/-- Host writes to ARG0, ARG1, ARG2: all 32 bits, no range check (R27). -/
def writeArg0 (v : Word) (s : State) : State := { s with arg0 := v }
def writeArg1 (v : Word) (s : State) : State := { s with arg1 := v }
def writeArg2 (v : Word) (s : State) : State := { s with arg2 := v }

/-- The reset event: every piece of state at its reset value "whatever it held before" (70_reset_and_hazards.md R230).
The parameters, what the host has still to perform and what it has already been told are not the block's state (log 5). -/
def applyReset (s : State) : State :=
  { State.resetWith s.cfg with pending := s.pending, replies := s.replies }

end Sys2Proof.Machine
end

