-- ==== Sys2Proof/Machine/Operands.lean ====
section
/-! DEFINITION. Operand assembly (30_encoding.md R94): no command has an immediate; REMAP and ENCODE read ARG registers as
whole 32-bit values, range-checked before use; RENDER reads pixels; LIMIT reads the records of the wire buffer. Also the
host-visible word layouts of a pixel and of an LED record. -/

namespace Sys2Proof.Machine

/-- The largest lightness, `maxOut = 0x1EE1 = 7905` (00_scope.md R7). -/
abbrev maxOut : Nat := 0x1EE1

/-- The largest linear intensity, `maxIn = 65535` (R7). -/
abbrev maxIn : Nat := 65535

/-- REMAP's operand and its check (40_remapper.md R112): "No value is truncated before the range check" (R94). -/
def remapOperand (s : State) : Except BlockError Nat :=
  if s.arg0.toNat > maxIn then .error (.rangeError .arg0) else .ok s.arg0.toNat

/-- ENCODE's operands (rLight, gLight, bLight) and their checks, the first offending register in the order ARG0, ARG1,
ARG2 (41_encoder.md R131, 60_exceptions.md R205). -/
def encodeOperands (s : State) : Except BlockError (Nat × Nat × Nat) :=
  if s.arg0.toNat > maxOut then .error (.rangeError .arg0)
  else if s.arg1.toNat > maxOut then .error (.rangeError .arg1)
  else if s.arg2.toNat > maxOut then .error (.rangeError .arg2)
  else .ok (s.arg0.toNat, s.arg1.toNat, s.arg2.toNat)

/-- One LED record, "brightness selector ..., then B, G, R" (30_encoding.md R96). -/
structure Record where
  brightness : Byte
  b : Byte
  g : Byte
  r : Byte
  deriving DecidableEq, Repr

/-- The record's four bytes in wire order (10_state.md R32). -/
def Record.bytes (x : Record) : List Byte := [x.brightness, x.b, x.g, x.r]

/-- The record as RES0 holds it, `{brightness, B, G, R}` with brightness in bits [31:24] (R28). -/
def Record.word (x : Record) : Word := x.brightness ++ x.b ++ x.g ++ x.r

/-- Record `i` as the wire buffer holds it, bytes `WB[4+4i]` to `WB[4+4i+3]` (R32). -/
def State.record (s : State) (i : Nat) : Record :=
  ⟨s.wireByte (4 + 4 * i), s.wireByte (4 + 4 * i + 1), s.wireByte (4 + 4 * i + 2), s.wireByte (4 + 4 * i + 3)⟩

/-- `{0x00, R, G, B}`: what a pixel read returns (20_memory.md R65). -/
def Color.word (c : Color) : Word := 0#8 ++ c.r ++ c.g ++ c.b

/-- The pixel word's fields: B [7:0], G [15:8], R [23:16]; [31:24] is ignored (R64). -/
def colorOfWord (w : Word) : Color := ⟨w.extractLsb' 16 8, w.extractLsb' 8 8, w.extractLsb' 0 8⟩

/-- `{WB[j+3], WB[j+2], WB[j+1], WB[j]}`: a 32-bit wire-buffer read is little-endian (R67). -/
def State.wireWord (s : State) (j : Nat) : Word :=
  s.wireByte (j + 3) ++ s.wireByte (j + 2) ++ s.wireByte (j + 1) ++ s.wireByte j

end Sys2Proof.Machine
end

