-- ==== Sys2Proof/Machine/Encoder.lean ====
section
/-! DEFINITION. The adaptive encoder (41_encoder.md): three lightnesses to one LED record, ENCODE. -/

namespace Sys2Proof.Machine

/-- `div(light, m) = floor((light + floor(m/2)) / m)` (R130). -/
def divRound (light m : Nat) : Nat := (light + m / 2) / m

/-- The multipliers, ascending (R130). -/
def multipliers : List Nat := [1, 2, 4, 31]

/-- Under multiplier `m` all three channel bytes fit in 8 bits (R130). -/
def fits (r g b m : Nat) : Bool := divRound b m ≤ 255 && divRound g m ≤ 255 && divRound r m ≤ 255

/-- The first multiplier that fits. 31 fits every lightness up to 0x1EE1 (R133); above that no rule gives a record and
no command asks for one (log 9). -/
def multiplier (r g b : Nat) : Nat := (multipliers.find? (fits r g b)).getD 31

/-- The brightness byte `0xE0 | m` (30_encoding.md R95). -/
def brightnessByte (m : Nat) : Byte := 0xE0#8 ||| BitVec.ofNat 8 m

/-- `encode(rLight, gLight, bLight)` (R130). -/
def encodeRecord (r g b : Nat) : Record :=
  let m := multiplier r g b
  ⟨brightnessByte m, BitVec.ofNat 8 (divRound b m), BitVec.ofNat 8 (divRound g m), BitVec.ofNat 8 (divRound r m)⟩

/-- ENCODE (R132): `RES0 <- {brightness, B, G, R}`, or RangeError and RES0 unchanged. -/
def execEncode (s : State) : Host.Outcome State Fault Refusal :=
  match encodeOperands s with
  | .error e => .next (raise e s)
  | .ok (r, g, b) => .next (s.setRes0 (encodeRecord r g b).word)

end Sys2Proof.Machine
end

