-- ==== Sys2Proof/Machine/Limiter.lean ====
section
/-! DEFINITION. The power budget limiter (42_power_limiter.md): the current estimate, the exceed test, the scaling, LIMIT. -/

namespace Sys2Proof.Machine

/-- `sum over i in [0, n) of f i`. -/
def sumBelow : Nat → (Nat → Nat) → Nat
  | 0, _ => 0
  | n + 1, f => sumBelow n f + f n

/-- The channel sum of one record; the brightness byte takes no part (R150). -/
def Record.channelSum (x : Record) : Nat := x.b.toNat + x.g.toNat + x.r.toNat

/-- `S`, the channel sum of all N records (R150). -/
def State.channelSum (s : State) : Nat := sumBelow s.count fun i => (s.record i).channelSum

/-- `T = K * S`, 255 times the estimated total current, never rounded (R150). -/
def State.estimate (s : State) : Nat := s.curPerCh.toNat * s.channelSum

/-- The limiter is enabled and the estimate is over the budget; equality is not excess (R151). -/
def State.exceeds (s : State) : Bool := s.budget.toNat ≠ 0 && s.estimate > 255 * s.budget.toNat

/-- `scale(c) = floor((2 * c * 255 * Bud + T) / (2 * T))` (R153). -/
def scale (bud t c : Nat) : Nat := (2 * c * 255 * bud + t) / (2 * t)

/-- Byte `j` is a channel byte `WB[4+4i+k]`, `i < n`, `k` in 1, 2, 3 (R152): not start frame, brightness or filler. -/
def isChannelByte (n j : Nat) : Bool := 4 ≤ j && j < 4 + 4 * n && j % 4 ≠ 0

/-- The wire buffer with every channel byte scaled, "all with the same S and T" (R152, log 7). -/
def State.scaledWire (s : State) : List Host.Cell :=
  Memory.update 0 (fun j v =>
    if isChannelByte s.count j then BitVec.ofNat 8 (scale s.budget.toNat s.estimate v.toNat) else v) s.wb

/-- What LIMIT does (R152); FRAME does it after RENDER (43_frame_packer.md R176). -/
def limitBuffer (s : State) : State :=
  if s.exceeds then (s.setWire s.scaledWire).setLimited true else s.setLimited false

/-- LIMIT (R152). -/
def execLimit (s : State) : Host.Outcome State Fault Refusal := .next (limitBuffer s)

end Sys2Proof.Machine
end

