-- ==== Sys2Proof/Machine/Remapper.lean ====
section
/-! DEFINITION. The intensity remapper (40_remapper.md): channel expansion, the two segments of the curve, REMAP. All
arithmetic is exact on unbounded integers (00_scope.md R8). -/

namespace Sys2Proof.Machine

/-- `lowCut = 30*255 = 7650` (R7). -/
abbrev lowCut : Nat := 30 * 255

/-- `outLow = lowCut/255 = 30` (R7). -/
abbrev outLow : Nat := lowCut / 255

/-- Channel expansion, `expand(c) = 257 * c` (40_remapper.md R110). -/
def expand (c : Byte) : Nat := 257 * c.toNat

/-- Linear segment: add 0.4 and truncate (R114). -/
def remapLinear (l : Nat) : Nat := (l + 102) / 255

/-- `den = 65535^3 - 7650^3` (R115). -/
def cubicDen : Nat := maxIn ^ 3 - lowCut ^ 3

/-- Cubic segment (R115): `30 + floor((78750 * num + 4 * den) / (10 * den))` with `num = L^3 - 7650^3`. -/
def remapCubic (l : Nat) : Nat :=
  outLow + (78750 * (l ^ 3 - lowCut ^ 3) + 4 * cubicDen) / (10 * cubicDen)

/-- The curve (R111), for `0 <= l <= 65535`. -/
def remap (l : Nat) : Nat := if l < lowCut then remapLinear l else remapCubic l

/-- REMAP (R113): `RES0 <- zext_32(remap(ARG0))`, or RangeError and RES0 unchanged. -/
def execRemap (s : State) : Host.Outcome State Fault Refusal :=
  match remapOperand s with
  | .error e => .next (raise e s)
  | .ok l => .next (s.setRes0 (BitVec.ofNat 32 (remap l)))

end Sys2Proof.Machine
end

