-- ==== Sys2Proof/Machine/Packer.lean ====
section
/-! DEFINITION. The frame packer and the `write(frame)` pipeline (43_frame_packer.md): NOP, RENDER, FRAME. -/

namespace Sys2Proof.Machine

/-- One pixel through expansion, the remapper (once per channel) and the encoder (R173). -/
def renderRecord (c : Color) : Record :=
  encodeRecord (remap (expand c.r)) (remap (expand c.g)) (remap (expand c.b))

/-- The whole wire buffer: 4 zero bytes, the records in LED order, `fillerLen` zero bytes (R172, 30_encoding.md R97). -/
def packFrame (records : List Record) : List Byte :=
  List.replicate 4 0 ++ records.flatMap Record.bytes ++ List.replicate (fillerLen records.length) 0

/-- The records RENDER writes, one per LED. -/
def State.renderedRecords (s : State) : List Record :=
  (List.range s.count).map fun i => renderRecord (s.pixel i)

/-- What RENDER does (R173): every byte of the buffer is written (R94), and FRAME_VALID is set (log 7). -/
def renderBuffer (s : State) : State :=
  (s.setWire (Memory.ofList 0 0 (packFrame s.renderedRecords))).setFrameValid true

/-- NOP (R171): "no state changes". -/
def execNop (s : State) : Host.Outcome State Fault Refusal := .next s

/-- RENDER (R173). -/
def execRender (s : State) : Host.Outcome State Fault Refusal := .next (renderBuffer s)

/-- FRAME (R176): RENDER, then LIMIT if BUDGET is not 0, else LIMITED <- 0. -/
def execFrame (s : State) : Host.Outcome State Fault Refusal :=
  let t := renderBuffer s
  if t.budget.toNat ≠ 0 then .next (limitBuffer t) else .next (t.setLimited false)

end Sys2Proof.Machine
end

