-- ==== Sys2Proof/Machine/Dispatch.lean ====
section
/-! DEFINITION. One arm per command (30_encoding.md R91). -/

namespace Sys2Proof.Machine

def exec (i : Instr) (s : State) : Host.Outcome State Fault Refusal :=
  match i with
  | .nop => Sys2Proof.Machine.execNop s
  | .remap => Sys2Proof.Machine.execRemap s
  | .encode => Sys2Proof.Machine.execEncode s
  | .limit => Sys2Proof.Machine.execLimit s
  | .render => Sys2Proof.Machine.execRender s
  | .frame => Sys2Proof.Machine.execFrame s

end Sys2Proof.Machine
end

