-- ==== Sys2Proof/Machine/Port.lean ====
section
/-! DEFINITION. The host port (20_memory.md): which accesses the three windows admit, what an admitted access does, and
that every other access is a BusError (R68). -/

namespace Sys2Proof.Machine

/-! ### The address map (R60) -/

/-- The register at a host address; the register page admits only the ten defined offsets (R62, R63). -/
def regAt (addr : Word) : Option Reg := allRegs.find? fun r => r.offset == addr

/-- Base of the pixel window. -/
abbrev pixBase : Nat := 0x00010000

/-- Base of the wire-buffer window. -/
abbrev wireBase : Nat := 0x00100000

/-- The pixel index of `addr = 0x00010000 + 4*i` with `0 <= i < n` (R65). -/
def pixelAt (n : Nat) (addr : Word) : Option Nat :=
  if pixBase ≤ addr.toNat ∧ (addr.toNat - pixBase) % 4 = 0 ∧ (addr.toNat - pixBase) / 4 < n then
    some ((addr.toNat - pixBase) / 4)
  else none

/-- The byte index of an 8-bit read: `0 <= j < bufferLen(n)` (R66). -/
def wireByteAt (n : Nat) (addr : Word) : Option Nat :=
  if wireBase ≤ addr.toNat ∧ addr.toNat - wireBase < bufferLen n then some (addr.toNat - wireBase) else none

/-- The byte index of a 32-bit read: a multiple of 4 with `j + 3 < bufferLen(n)` (R66). -/
def wireWordAt (n : Nat) (addr : Word) : Option Nat :=
  if wireBase ≤ addr.toNat ∧ (addr.toNat - wireBase) % 4 = 0 ∧ addr.toNat - wireBase + 3 < bufferLen n then
    some (addr.toNat - wireBase)
  else none

/-! ### Reads -/

/-- What an admitted 8-bit read returns; `none` if it is refused (R62, R65, R66). -/
def read8Value (addr : Word) (s : State) : Option Byte :=
  (wireByteAt s.count addr).map s.wireByte

/-- What an admitted 32-bit read returns; `none` if it is refused. For N up to 65535 the windows never overlap (R60), so
the order of the three questions is of no account (log 8). -/
def read32Value (addr : Word) (s : State) : Option Word :=
  match regAt addr with
  | some r => some (readReg r s)
  | none =>
    match pixelAt s.count addr with
    | some i => some (s.pixel i).word
    | none => (wireWordAt s.count addr).map s.wireWord

/-! ### Writes -/

/-- A write of `v` to CMD performs the command `v` at once (10_state.md R22, 30_encoding.md R92). -/
def performCommand (v : Word) (s : State) : Host.Outcome State Fault Refusal :=
  match decode v with
  | .command i => exec i s
  | .reject _ => .next (raise (.illegalCommand v) s)

/-- A 32-bit write of `v` to a register (10_state.md R22 to R29). -/
def writeReg (r : Reg) (v : Word) (s : State) : Host.Outcome State Fault Refusal :=
  match r with
  | .cmd => performCommand v s
  | .status => .next (clearErrors v s)
  | .ledCount => .next (writeLedCount v s)
  | .curPerCh => .next (writeCurPerCh v s)
  | .budget => .next (writeBudget v s)
  | .arg0 => .next (writeArg0 v s)
  | .arg1 => .next (writeArg1 v s)
  | .arg2 => .next (writeArg2 v s)
  | .res0 => .next (raise (.busError r.offset) s)
  | .bufLen => .next (raise (.busError r.offset) s)

/-- A write of pixel word `w` to an admitted pixel index (20_memory.md R65). -/
def writePixel (i : Nat) (w : Word) (s : State) : State :=
  s.setPixels (Memory.write Color.black s.pix i (colorOfWord w))

/-- A 32-bit host write. -/
def write32 (addr v : Word) (s : State) : Host.Outcome State Fault Refusal :=
  match regAt addr with
  | some r => writeReg r v s
  | none =>
    match pixelAt s.count addr with
    | some i => .next (writePixel i v s)
    | none => .next (raise (.busError addr) s)

/-! ### One access -/

/-- One host access (R61). A refused read returns 0, a refused write changes nothing but STATUS (R68, log 11). -/
def perform (a : Access) (s : State) : Host.Outcome State Fault Refusal :=
  match a with
  | .read8 addr =>
    match read8Value addr s with
    | some v => .next (s.reply (.byte v))
    | none => .next ((raise (.busError addr) s).reply (.byte 0))
  | .read32 addr =>
    match read32Value addr s with
    | some v => .next (s.reply (.word v))
    | none => .next ((raise (.busError addr) s).reply (.word 0))
  | .write8 addr _ => .next (raise (.busError addr) s)
  | .write32 addr v => write32 addr v s

/-- One event at the port: an access, or reset (70_reset_and_hazards.md R230). -/
def performEvent (e : PortEvent) (s : State) : Host.Outcome State Fault Refusal :=
  match e with
  | .access a => perform a s
  | .reset => .next (applyReset s)

/-- The host issues more events: they are performed after those already issued, in the order given (R71). -/
def State.issue (s : State) (es : List PortEvent) : State := s.setPending (s.pending ++ es)

end Sys2Proof.Machine
end

