-- ==== Sys2Proof/Machine/Step.lean ====
section
/-! DEFINITION. One step: the oldest issued event is performed whole (00_scope.md R10, 20_memory.md R71). -/

namespace Sys2Proof.Machine

/-- With nothing issued the block waits (70_reset_and_hazards.md R231); otherwise it performs the oldest event, completely,
before the next (R71, log 1). -/
def step (s : State) : Host.Outcome State Fault Refusal :=
  match s.pending with
  | [] => .next s
  | e :: rest => performEvent e (s.setPending rest)

/-- The command word of an opcode-table row, as the next access the block performs: a 32-bit write to CMD. The block fetches
nothing (R74): a program comes to it from the host (log 4). -/
def State.withFetchWord (s : State) (nbits w : Nat) : State :=
  s.setPending (.access (.write32 Reg.cmd.offset (tableWord nbits w)) :: s.pending)

end Sys2Proof.Machine
end

