-- ==== Sys2Proof/Machine/Program.lean ====
section
/-! DEFINITION. The host-program syntax and its pseudo-instructions (30_encoding.md R99, R100): lines, the transactions
they stand for, and their text (log 14). -/

namespace Sys2Proof.Machine

/-- One line of a host program: the transactions of R99, then the pseudo-instructions of R100. -/
inductive Line where
  /-- `WR <reg>, <value>` -/
  | wr (r : Reg) (v : Word)
  /-- `RD <reg>` -/
  | rd (r : Reg)
  /-- `PIXW <i>, <0xRRGGBB>` -/
  | pixw (i : Nat) (rgb : BitVec 24)
  /-- `PIXR <i>` -/
  | pixr (i : Nat)
  /-- `WBR8 <j>` -/
  | wbr8 (j : Nat)
  /-- `WBR32 <j>` -/
  | wbr32 (j : Nat)
  /-- `NOP` / `REMAP` / `ENCODE` / `LIMIT` / `RENDER` / `FRAME` -/
  | command (i : Instr)
  /-- `REMAP <x>` -/
  | remapOf (x : Word)
  /-- `ENCODE <r>, <g>, <b>` -/
  | encodeOf (r g b : Word)
  /-- `LEDS <n>` -/
  | leds (n : Word)
  /-- `POWER <k>, <b>` -/
  | power (k b : Word)
  /-- `CLRERR` -/
  | clrErr
  /-- `CMD <v>` -/
  | cmd (v : Word)
  deriving DecidableEq, Repr

/-- `0x00010000 + 4*i`, as a number (R99). -/
def pixelAddress (i : Nat) : Nat := pixBase + 4 * i

/-- `0x00100000 + j`, as a number (R99). -/
def wireAddress (j : Nat) : Nat := wireBase + j

/-- The address a line computes is a host address, 32 bits (20_memory.md R60); the other lines have nothing to check. -/
def Line.wf : Line → Bool
  | .pixw i _ => pixelAddress i < 2 ^ 32
  | .pixr i => pixelAddress i < 2 ^ 32
  | .wbr8 j => wireAddress j < 2 ^ 32
  | .wbr32 j => wireAddress j < 2 ^ 32
  | .wr _ _ | .rd _ | .command _ | .remapOf _ | .encodeOf _ _ _ | .leds _ | .power _ _ | .clrErr | .cmd _ => true

/-- `MemWrite(offset(reg), 4, value)`. -/
def writeTo (r : Reg) (v : Word) : Access := .write32 r.offset v

/-- The transactions a line stands for (R99, R100): "A pseudo-instruction means exactly its expansion". -/
def Line.expand : Line → List Access
  | .wr r v => [writeTo r v]
  | .rd r => [.read32 r.offset]
  | .pixw i rgb => [.write32 (BitVec.ofNat 32 (pixelAddress i)) (rgb.setWidth 32)]
  | .pixr i => [.read32 (BitVec.ofNat 32 (pixelAddress i))]
  | .wbr8 j => [.read8 (BitVec.ofNat 32 (wireAddress j))]
  | .wbr32 j => [.read32 (BitVec.ofNat 32 (wireAddress j))]
  | .command i => [writeTo .cmd (encode i)]
  | .remapOf x => [writeTo .arg0 x, writeTo .cmd (encode .remap)]
  | .encodeOf r g b => [writeTo .arg0 r, writeTo .arg1 g, writeTo .arg2 b, writeTo .cmd (encode .encode)]
  | .leds n => [writeTo .ledCount n]
  | .power k b => [writeTo .curPerCh k, writeTo .budget b]
  | .clrErr => [writeTo .status 0x00000007#32]
  | .cmd v => [writeTo .cmd v]

/-- The host issues a program: its lines' transactions, in order. -/
def State.load (s : State) (p : List Line) : State := s.issue ((p.flatMap Line.expand).map .access)

/-! ### Text of a line (R99): "Values are decimal or `0x` hexadecimal", "Comments start with `;`" -/

/-- Characters between tokens (log 14). -/
def isSeparator (c : Char) : Bool := c == ' ' || c == ',' || c == '\t'

/-- The tokens of a line up to its comment; `cur` is the token being read, reversed. -/
def tokensFrom : List Char → List Char → List (List Char)
  | [], cur => if cur.isEmpty then [] else [cur.reverse]
  | c :: cs, cur =>
    if c == ';' then (if cur.isEmpty then [] else [cur.reverse])
    else if isSeparator c then (if cur.isEmpty then tokensFrom cs [] else cur.reverse :: tokensFrom cs [])
    else tokensFrom cs (c :: cur)

def tokens (line : List Char) : List (List Char) := tokensFrom line []

/-- The value of a digit in base 10 or 16. -/
def digitValue (base : Nat) (c : Char) : Option Nat :=
  let n := c.toNat
  let v :=
    if 48 ≤ n ∧ n ≤ 57 then n - 48
    else if 65 ≤ n ∧ n ≤ 70 then n - 55
    else if 97 ≤ n ∧ n ≤ 102 then n - 87
    else base
  if v < base then some v else none

def digitsFrom (base : Nat) : List Char → Nat → Option Nat
  | [], acc => some acc
  | c :: cs, acc =>
    match digitValue base c with
    | some v => digitsFrom base cs (base * acc + v)
    | none => none

/-- Decimal, or hexadecimal after `0x`. -/
def parseNat : List Char → Option Nat
  | [] => none
  | c :: cs =>
    match c == '0', cs with
    | true, 'x' :: d :: ds => digitsFrom 16 (d :: ds) 0
    | _, _ => digitsFrom 10 (c :: cs) 0

/-- A value of at most `w` bits; a longer one is no value of that field. -/
def parseBits (w : Nat) (t : List Char) : Option (BitVec w) :=
  match parseNat t with
  | some n => if n < 2 ^ w then some (BitVec.ofNat w n) else none
  | none => none

/-- The register names of 10_state.md R21. -/
def regNames : List (List Char × Reg) :=
  [(['C', 'M', 'D'], .cmd), (['S', 'T', 'A', 'T', 'U', 'S'], .status),
   (['L', 'E', 'D', '_', 'C', 'O', 'U', 'N', 'T'], .ledCount),
   (['C', 'U', 'R', '_', 'P', 'E', 'R', '_', 'C', 'H'], .curPerCh),
   (['B', 'U', 'D', 'G', 'E', 'T'], .budget), (['A', 'R', 'G', '0'], .arg0), (['A', 'R', 'G', '1'], .arg1),
   (['A', 'R', 'G', '2'], .arg2), (['R', 'E', 'S', '0'], .res0), (['B', 'U', 'F', '_', 'L', 'E', 'N'], .bufLen)]

def parseReg (t : List Char) : Option Reg := (regNames.find? fun p => p.1 == t).map Prod.snd

/-- The command mnemonics of 30_encoding.md R91. -/
def commandNames : List (List Char × Instr) :=
  [(['N', 'O', 'P'], .nop), (['R', 'E', 'M', 'A', 'P'], .remap), (['E', 'N', 'C', 'O', 'D', 'E'], .encode),
   (['L', 'I', 'M', 'I', 'T'], .limit), (['R', 'E', 'N', 'D', 'E', 'R'], .render), (['F', 'R', 'A', 'M', 'E'], .frame)]

def parseCommand (t : List Char) : Option Instr := (commandNames.find? fun p => p.1 == t).map Prod.snd

/-- A line of one token: a command, or `CLRERR`. -/
def parseLine0 (k : List Char) : Option Line :=
  if k == ['C', 'L', 'R', 'E', 'R', 'R'] then some .clrErr else (parseCommand k).map .command

/-- A line of a token and one operand. -/
def parseLine1 (k x : List Char) : Option Line :=
  if k == ['R', 'D'] then (parseReg x).map .rd
  else if k == ['P', 'I', 'X', 'R'] then (parseNat x).map .pixr
  else if k == ['W', 'B', 'R', '8'] then (parseNat x).map .wbr8
  else if k == ['W', 'B', 'R', '3', '2'] then (parseNat x).map .wbr32
  else if k == ['R', 'E', 'M', 'A', 'P'] then (parseBits 32 x).map .remapOf
  else if k == ['L', 'E', 'D', 'S'] then (parseBits 32 x).map .leds
  else if k == ['C', 'M', 'D'] then (parseBits 32 x).map .cmd
  else none

/-- A line of a token and two operands. -/
def parseLine2 (k x y : List Char) : Option Line :=
  if k == ['W', 'R'] then (parseReg x).bind fun r => (parseBits 32 y).map (.wr r)
  else if k == ['P', 'I', 'X', 'W'] then (parseNat x).bind fun i => (parseBits 24 y).map (.pixw i)
  else if k == ['P', 'O', 'W', 'E', 'R'] then (parseBits 32 x).bind fun n => (parseBits 32 y).map (.power n)
  else none

/-- A line of a token and three operands: `ENCODE <r>, <g>, <b>`. -/
def parseLine3 (k x y z : List Char) : Option Line :=
  if k == ['E', 'N', 'C', 'O', 'D', 'E'] then
    (parseBits 32 x).bind fun r => (parseBits 32 y).bind fun g => (parseBits 32 z).map (.encodeOf r g)
  else none

/-- The lines of one text line: none if it is blank or a comment; rejected if it is no line of R99 or R100, or an
ill-formed one. -/
def parseLine (text : List Char) : Option (List Line) :=
  let parsed : Option Line :=
    match tokens text with
    | [k] => parseLine0 k
    | [k, x] => parseLine1 k x
    | [k, x, y] => parseLine2 k x y
    | [k, x, y, z] => parseLine3 k x y z
    | _ => none
  if (tokens text).isEmpty then some []
  else
    match parsed with
    | some l => if l.wf then some [l] else none
    | none => none

/-- A host program: its text lines, each read by `parseLine` (R99: "one per line"). -/
def parseProgram : List (List Char) → Option (List Line)
  | [] => some []
  | t :: ts =>
    match parseLine t, parseProgram ts with
    | some l, some ls => some (l ++ ls)
    | _, _ => none

end Sys2Proof.Machine
end

