-- ==== Sys2Proof/Safety.lean ====
section
/-! DEFINITION. What counts as a safe run: the invariants every step keeps, "no error recorded", and the host's duties of
70_reset_and_hazards.md as predicates on what it issues. -/

namespace Sys2Proof.Machine

/-- No error bit is set (10_state.md R23). "Claims take 'no error bit set' as a premise" (92_eei_decisions.md D19). -/
def State.noError (s : State) : Bool := noErrorBits s.status

/-- Boot step (5): "FRAME_VALID = 1 and no error bits means the buffer is ready" (70_reset_and_hazards.md R232). -/
def State.frameReady (s : State) : Bool := s.frameValid && s.noError

/-- STATUS `new` is `old` with error bit `bit` set, CAUSE made `code`, and every other bit as before (60_exceptions.md
R201, R202, R203). -/
def ErrorRecorded (bit code : Nat) (old new : Word) : Prop :=
  ∀ k < 32, new.getLsbD k =
    if k = bit then true else if 8 ≤ k ∧ k ≤ 11 then code.testBit (k - 8) else old.getLsbD k

/-- STATUS `new` is `old` with bit `bit` made `b` and every other bit as before. -/
def OnlyBit (bit : Nat) (b : Bool) (old new : Word) : Prop :=
  ∀ k < 32, new.getLsbD k = if k = bit then b else old.getLsbD k

/-- Every piece of the block's state at its reset value: the table of 70_reset_and_hazards.md R230, row by row. -/
structure State.AtReset (s : State) : Prop where
  cmd : readReg .cmd s = 0x00000000#32
  status : s.status = 0x00000000#32
  ledCount : s.ledCount = 0#32
  curPerCh : s.curPerCh = 0#16
  budget : s.budget = 0#32
  arg0 : s.arg0 = 0x00000000#32
  arg1 : s.arg1 = 0x00000000#32
  arg2 : s.arg2 = 0x00000000#32
  res0 : s.res0 = 0x00000000#32
  bufLen : readReg .bufLen s = 5#32
  pix : ∀ i, s.pixel i = ⟨0, 0, 0⟩
  wb_length : bufferLen s.count = 5
  wb : ∀ j, s.wireByte j = 0x00#8

/-- The accesses the rules admit in a block of `n` LEDs (20_memory.md R62, R65, R66). -/
def Access.Admitted (n : Nat) : Access → Prop
  | .read8 addr => ∃ j, j < bufferLen n ∧ addr.toNat = 0x00100000 + j
  | .read32 addr =>
    (∃ r : Reg, addr = r.offset) ∨ (∃ i, i < n ∧ addr.toNat = 0x00010000 + 4 * i) ∨
      ∃ j, j % 4 = 0 ∧ j + 3 < bufferLen n ∧ addr.toNat = 0x00100000 + j
  | .write8 _ _ => False
  | .write32 addr _ =>
    (∃ r : Reg, r ≠ .res0 ∧ r ≠ .bufLen ∧ addr = r.offset) ∨ ∃ i, i < n ∧ addr.toNat = 0x00010000 + 4 * i

/-- What a refused access returns: 0 of the read's width; a write returns nothing (R68). -/
def Access.refusedReply : Access → List Reply
  | .read8 _ => [.byte 0x00#8]
  | .read32 _ => [.word 0x00000000#32]
  | .write8 _ _ => []
  | .write32 _ _ => []

/-- The access is a BusError: ERR_BUS and CAUSE 3 recorded, 0 returned to a read, and no other state changed (R68,
60_exceptions.md R203). -/
def Access.IsBusError (a : Access) (s : State) : Prop :=
  ∃ t, perform a s = .next t ∧ ErrorRecorded 2 3 s.status t.status ∧
    t = { s with status := t.status, replies := s.replies ++ a.refusedReply }

/-- The access is an admitted read that returns `r`: nothing of the block's state changes (20_memory.md R70). -/
def Access.ReadsAs (a : Access) (s : State) (r : Reply) : Prop :=
  perform a s = .next { s with replies := s.replies ++ [r] }

/-- What every step keeps of the memories: canonical lists, pixels only below N, N at most NMAX (10_state.md R24, R30,
20_memory.md R65), and the start frame and the filler zero (43_frame_packer.md R172). -/
structure State.MemoryInv (s : State) : Prop where
  pix_wf : Memory.wf Color.black s.pix = true
  wb_wf : Memory.wf 0 s.wb = true
  count_le : s.count ≤ s.cfg.nmax.val
  pix_above : ∀ i, s.count ≤ i → s.pixel i = Color.black
  start_zero : ∀ j, j < 4 → s.wireByte j = 0
  filler_zero : ∀ j, 4 + 4 * s.count ≤ j → s.wireByte j = 0

/-- What every step keeps of STATUS: reserved bits read 0, CAUSE is 0 to 3, and CAUSE is 0 exactly when no error bit is set
(10_state.md R23, 60_exceptions.md R200, R207). -/
structure State.StatusInv (s : State) : Prop where
  reserved : ∀ k, k = 3 ∨ k = 6 ∨ k = 7 ∨ 12 ≤ k → s.status.getLsbD k = false
  cause_le : s.cause.toNat ≤ 3
  cause_zero : s.cause = 0 ↔ s.noError = true

/-- What every step keeps of the frame: while FRAME_VALID is 0 the buffer is all zero; while it is 1 every record's
brightness byte is one of the four (30_encoding.md R95, 43_frame_packer.md R175). -/
structure State.FrameInv (s : State) : Prop where
  invalid_zero : s.frameValid = false → ∀ j, s.wireByte j = 0
  valid_brightness : s.frameValid = true → ∀ i < s.count,
    (s.record i).brightness ∈ [0xE1#8, 0xE2#8, 0xE4#8, 0xFF#8]

/-- The invariant of the block. -/
structure State.Inv (s : State) : Prop where
  memory : s.MemoryInv
  status : s.StatusInv
  frame : s.FrameInv

/-- An event that may rewrite a wire buffer held for `n` LEDs in a block whose largest LED count is `nmax`: "a RENDER, FRAME or
LIMIT", "a LED_COUNT write that changes N" (70_reset_and_hazards.md R243; one above NMAX changes nothing, 10_state.md R24), or
reset. -/
def PortEvent.rewritesWire (nmax : Nat) (n : Word) : PortEvent → Bool
  | .reset => true
  | .access (.write32 addr v) =>
    match regAt addr with
    | some .cmd => decode v = .command .render || decode v = .command .frame || decode v = .command .limit
    | some .ledCount => v.toNat ≤ nmax && v ≠ n
    | some _ => false
    | none => false
  | .access (.read8 _) => false
  | .access (.read32 _) => false
  | .access (.write8 _ _) => false

/-- The host's duty of R243 over what it issues while it reads one frame. -/
def transmissionQuiet (nmax : Nat) (n : Word) (es : List PortEvent) : Bool := es.all fun e => !e.rewritesWire nmax n

end Sys2Proof.Machine
end

