-- ==== Sys2Proof/Certificates/Slice0/Obligations.lean ====
section
/-! DEFINITION. The statements for the provers. Each docstring names the rule of spec/ it formalises; a clause that rests on
a choice of the model names its log entry. -/

open Sys2Proof Sys2Proof.Machine

/-! ### Reset, the port, decoding -/

/-- R230. The state after power-on reset, and after a reset event in any state. -/
def Obligations.ResetPutsEveryPieceAtItsValue : Prop :=
  State.reset.AtReset ∧
    ∀ (s : State) (rest : List PortEvent), s.pending = .reset :: rest → ∃ t, step s = .next t ∧ t.AtReset

/-- Derived: the model's choice (log 5) of what a reset event is no part of. -/
def Obligations.ResetEventKeepsParametersAndHostSide : Prop :=
  ∀ (s : State) (rest : List PortEvent), s.pending = .reset :: rest →
    step s = .next { State.resetWith s.cfg with pending := rest, replies := s.replies }

/-- Derived from R71, R231: one step performs the oldest event whole; with none the block waits (log 1). -/
def Obligations.StepPerformsTheOldestEvent : Prop :=
  (∀ s : State, s.pending = [] → step s = .next s) ∧
    ∀ (s : State) (a : Access) (rest : List PortEvent), s.pending = .access a :: rest →
      step s = perform a { s with pending := rest }

/-- Derived from R22, R92: a write to CMD of a word that decodes to `i` is `exec i`. -/
def Obligations.StepRunsTheDecodedCommand : Prop :=
  ∀ (s : State) (v : Word) (i : Instr) (rest : List PortEvent),
    s.pending = .access (.write32 0x00000000#32 v) :: rest → decode v = .command i →
      step s = exec i { s with pending := rest }

/-- R92, R93, R201. The six words perform their commands; every other word records IllegalCommand and nothing else. -/
def Obligations.CommandWriteFollowsTheOpcodeMap : Prop :=
  ∀ (s : State) (v : Word) (rest : List PortEvent), s.pending = .access (.write32 0x00000000#32 v) :: rest →
    (v = 0x00000000#32 → step s = exec .nop { s with pending := rest }) ∧
    (v = 0x00000001#32 → step s = exec .remap { s with pending := rest }) ∧
    (v = 0x00000002#32 → step s = exec .encode { s with pending := rest }) ∧
    (v = 0x00000003#32 → step s = exec .limit { s with pending := rest }) ∧
    (v = 0x00000004#32 → step s = exec .render { s with pending := rest }) ∧
    (v = 0x00000005#32 → step s = exec .frame { s with pending := rest }) ∧
    (v.extractLsb' 4 28 ≠ 0#28 ∨ 0x6 ≤ (v.extractLsb' 0 4).toNat →
      ∃ t, step s = .next t ∧ ErrorRecorded 0 1 s.status t.status ∧ t = { s with pending := rest, status := t.status })

/-- Derived from R90 to R93: decode and encode agree on every 32-bit word, and the words decode refuses are exactly those with a
reserved bit set or an opcode above 5. -/
def Obligations.DecodeAndEncodeAgreeOnEveryWord : Prop :=
  ∀ v : Word, (∀ i : Instr, decode v = .command i ↔ v = encode i) ∧
    ((∃ r, decode v = .reject r) ↔ v.extractLsb' 4 28 ≠ 0#28 ∨ 6 ≤ (v.extractLsb' 0 4).toNat) ∧
    (commandWordWf v = true ↔ ∃ i : Instr, v = encode i)

/-- Derived from R91 to R93: the words of the opcode map, and some that are none. -/
def Obligations.OpcodeMapWords : Prop :=
  decode 0x00000000#32 = .command .nop ∧ decode 0x00000001#32 = .command .remap ∧
  decode 0x00000002#32 = .command .encode ∧ decode 0x00000003#32 = .command .limit ∧
  decode 0x00000004#32 = .command .render ∧ decode 0x00000005#32 = .command .frame ∧
  decode 0x00000006#32 = .reject (.reservedOpcode 0x6#4) ∧ decode 0x0000000F#32 = .reject (.reservedOpcode 0xF#4) ∧
  decode 0x00000010#32 = .reject (.reservedField 1#28) ∧ decode 0x80000001#32 = .reject (.reservedField 0x8000000#28)

/-- Derived from R206: no event stops the block. The queue a step takes its event from (log 1), the replies a read is answered
in (log 2) and the parameters it keeps (log 3) are the model's own fields, and that a reset event keeps all three is the
model's choice (log 5). -/
def Obligations.EveryStepCompletesAndTakesOneEvent : Prop :=
  ∀ s : State, ∃ t, step s = .next t ∧ t.pending = s.pending.tail ∧ t.cfg = s.cfg ∧
    ∃ rs : List Reply, t.replies = s.replies ++ rs ∧
      match s.pending.head? with
      | some (.access (.read8 _)) => ∃ v, rs = [.byte v]
      | some (.access (.read32 _)) => ∃ v, rs = [.word v]
      | _ => rs = []

/-- Derived from R71: what the host issues later changes nothing of what was issued before, and every issued event is performed
in as many steps as there are events. That the events are a queue with one step each is the model's choice (log 1), and so is
that events behind a reset survive it (log 5). -/
def Obligations.EarlierAccessesIgnoreLaterOnes : Prop :=
  ∀ (s : State) (es : List PortEvent), ∃ t, Sys2Proof.core.run s.pending.length s = .next t ∧ t.pending = [] ∧
    Sys2Proof.core.run s.pending.length (s.issue es) = .next { t with pending := es }

/-! ### REMAP -/

/-- R171: NOP changes nothing, only the word 0 is NOP, and a CMD write of a word with OP = 0 and an RSV bit set is
IllegalCommand. -/
def Obligations.NopChangesNothing : Prop :=
  (∀ s : State, exec .nop s = .next s) ∧ (∀ v : Word, decode v = .command .nop ↔ v = 0x00000000#32) ∧
    ∀ (s : State) (v : Word), v.extractLsb' 0 4 = 0#4 → v.extractLsb' 4 28 ≠ 0#28 →
      ∃ t, perform (.write32 0x00000000#32 v) s = .next t ∧ ErrorRecorded 0 1 s.status t.status ∧
        t = { s with status := t.status }

/-- R110. -/
def Obligations.ExpandRepeatsTheChannelByte : Prop :=
  ∀ c : Byte, expand c = 257 * c.toNat ∧ BitVec.ofNat 16 (expand c) = c ++ c ∧ expand c < 2 ^ 16 ∧
    expand 0x00#8 = 0x0000 ∧ expand 0xFF#8 = 0xFFFF

/-- R112, R113. -/
def Obligations.RemapWritesRes0OrRecordsRangeError : Prop :=
  decode 0x00000001#32 = .command .remap ∧ ∀ s : State,
    (s.arg0.toNat ≤ 0xFFFF → exec .remap s = .next { s with res0 := BitVec.ofNat 32 (remap s.arg0.toNat) } ∧
      (BitVec.ofNat 32 (remap s.arg0.toNat)).toNat = remap s.arg0.toNat) ∧
    (0xFFFF < s.arg0.toNat →
      ∃ t, exec .remap s = .next t ∧ ErrorRecorded 1 2 s.status t.status ∧ t = { s with status := t.status })

/-- R111, R114, R115: the integer form, the real-number form it computes, and the range of each segment. -/
def Obligations.RemapIsTheSpecifiedCurve : Prop :=
  (∀ l : Nat, l < 7650 →
    remap l = (l + 102) / 255 ∧ (remap l : ℤ) = ⌊(l : ℚ) / 255 + 4 / 10⌋ ∧ remap l ≤ 30 ∧ (remap l = 0 ↔ l ≤ 152) ∧
    ∀ k, 1 ≤ k → k ≤ 30 → (k ≤ remap l ↔ 255 * k - 102 ≤ l)) ∧
  (∀ l : Nat, 7650 ≤ l → l ≤ 65535 →
    remap l = 30 + (78750 * (l ^ 3 - 7650 ^ 3) + 4 * 281014394880375) / (10 * 281014394880375) ∧
    (remap l : ℤ) = ⌊(30 : ℚ) + 7875 * (((l : ℚ) / 65535) ^ 3 - (7650 / 65535) ^ 3) / (1 - (7650 / 65535) ^ 3) + 4 / 10⌋ ∧
    30 ≤ remap l ∧ remap l ≤ 0x1EE1)

/-- R116 (a) to (d), and the first inputs of the outputs it lists. -/
def Obligations.RemapIsMonotoneContinuousAndInRange : Prop :=
  (∀ l, l ≤ 65535 → remap l ≤ 0x1EE1 ∧ remap l < 2 ^ 13) ∧
  (∀ a b, a < b → b ≤ 65535 → remap a ≤ remap b) ∧
  (∀ l, l ≤ 65534 → remap (l + 1) = remap l ∨ remap (l + 1) = remap l + 1) ∧
  remap 7649 = 30 ∧ remap 7650 = 30 ∧ remap 0 = 0 ∧ remap 65535 = 0x1EE1 ∧ remap 65534 = 7905 ∧
  (∀ l, l ≤ 65535 → ((remap l = 30 ↔ 7548 ≤ l ∧ l ≤ 7770) ∧ (31 ≤ remap l ↔ 7771 ≤ l) ∧ (32 ≤ remap l ↔ 7963 ≤ l) ∧
    (33 ≤ remap l ↔ 8146 ≤ l) ∧ (34 ≤ remap l ↔ 8322 ≤ l) ∧ (35 ≤ remap l ↔ 8490 ≤ l)))

/-! ### ENCODE -/

/-- R130, R131, R132. The multiplier is the first of 1, 2, 4, 31 under which every channel byte fits; the offending register is
the first in the order ARG0, ARG1, ARG2. -/
def Obligations.EncodeWritesTheRecordOrRecordsRangeError : Prop :=
  decode 0x00000002#32 = .command .encode ∧ ∀ s : State, let r := s.arg0.toNat; let g := s.arg1.toNat; let b := s.arg2.toNat
    (r ≤ 0x1EE1 ∧ g ≤ 0x1EE1 ∧ b ≤ 0x1EE1 →
      ∃ m ∈ [1, 2, 4, 31],
        (∀ c ∈ [b, g, r], (c + m / 2) / m ≤ 255) ∧
        (∀ m' ∈ [1, 2, 4, 31], m' < m → ¬ ∀ c ∈ [b, g, r], (c + m' / 2) / m' ≤ 255) ∧
        exec .encode s = .next { s with
          res0 := (0xE0#8 ||| BitVec.ofNat 8 m) ++ BitVec.ofNat 8 ((b + m / 2) / m) ++
            BitVec.ofNat 8 ((g + m / 2) / m) ++ BitVec.ofNat 8 ((r + m / 2) / m) }) ∧
    (0x1EE1 < r ∨ 0x1EE1 < g ∨ 0x1EE1 < b →
      ∃ t, exec .encode s = .next t ∧ ErrorRecorded 1 2 s.status t.status ∧ t = { s with status := t.status }) ∧
    (0x1EE1 < r → encodeOperands s = .error (.rangeError .arg0)) ∧
    (r ≤ 0x1EE1 → 0x1EE1 < g → encodeOperands s = .error (.rangeError .arg1)) ∧
    (r ≤ 0x1EE1 → g ≤ 0x1EE1 → 0x1EE1 < b → encodeOperands s = .error (.rangeError .arg2))

/-- Derived from R133: the multiplier and the brightness byte in each of its four ranges (its "iff `L <= 7909`" is left out: log
17). -/
def Obligations.MultiplierDependsOnTheLargestLightness : Prop :=
  ∀ r g b : Nat, r ≤ 7905 → g ≤ 7905 → b ≤ 7905 →
    let lmax := max r (max g b)
    (lmax ≤ 255 → multiplier r g b = 1 ∧ (encodeRecord r g b).brightness = 0xE1#8) ∧
    (256 ≤ lmax → lmax ≤ 510 → multiplier r g b = 2 ∧ (encodeRecord r g b).brightness = 0xE2#8) ∧
    (511 ≤ lmax → lmax ≤ 1021 → multiplier r g b = 4 ∧ (encodeRecord r g b).brightness = 0xE4#8) ∧
    (1022 ≤ lmax → multiplier r g b = 31 ∧ (encodeRecord r g b).brightness = 0xFF#8)

/-- R134. -/
def Obligations.EncoderIsMinimalAndNear : Prop :=
  ∀ r g b : Nat, r ≤ 7905 → g ≤ 7905 → b ≤ 7905 →
    let m := multiplier r g b
    let x := encodeRecord r g b
    (r ≤ 255 ∧ g ≤ 255 ∧ b ≤ 255 → m = 1 ∧ x.r.toNat = r ∧ x.g.toNat = g ∧ x.b.toNat = b) ∧
    (∀ p ∈ [(x.r, r), (x.g, g), (x.b, b)],
      |((p.1.toNat * m : Nat) : ℤ) - (p.2 : ℤ)| ≤ ((m / 2 : Nat) : ℤ) ∧ (m = 1 → p.1.toNat = p.2)) ∧
    (2 ≤ m → m / 2 ≤ m - 1) ∧
    x.brightness ∈ [0xE1#8, 0xE2#8, 0xE4#8, 0xFF#8]

/-! ### LIMIT -/

/-- R150, R151, R152, R153, in every state whose wire buffer is canonical (`StepKeepsTheMemoryInvariant`). -/
def Obligations.LimitScalesExactlyWhenOverBudget : Prop :=
  decode 0x00000003#32 = .command .limit ∧ ∀ s : State, Memory.wf 0 s.wb = true →
    let n := s.ledCount.toNat
    let bud := s.budget.toNat
    let sum := ((List.range n).map fun i =>
      (s.wireByte (4 + 4 * i + 1)).toNat + (s.wireByte (4 + 4 * i + 2)).toNat + (s.wireByte (4 + 4 * i + 3)).toNat).sum
    let total := s.curPerCh.toNat * sum
    (bud ≠ 0 ∧ 255 * bud < total →
      ∃ t, exec .limit s = .next t ∧ t = { s with wb := t.wb, status := t.status } ∧ OnlyBit 4 true s.status t.status ∧
        (∀ i < n, ∀ k ∈ [1, 2, 3], (t.wireByte (4 + 4 * i + k)).toNat =
            (2 * (s.wireByte (4 + 4 * i + k)).toNat * 255 * bud + total) / (2 * total) ∧
          ((t.wireByte (4 + 4 * i + k)).toNat : ℤ) =
            ⌊((s.wireByte (4 + 4 * i + k)).toNat : ℚ) * (bud / (total / 255)) + 1 / 2⌋ ∧
          (t.wireByte (4 + 4 * i + k)).toNat ≤ (s.wireByte (4 + 4 * i + k)).toNat) ∧
        ∀ j, (∀ i < n, ∀ k ∈ [1, 2, 3], j ≠ 4 + 4 * i + k) → t.wireByte j = s.wireByte j) ∧
    (¬ (bud ≠ 0 ∧ 255 * bud < total) →
      ∃ t, exec .limit s = .next t ∧ t = { s with status := t.status } ∧ OnlyBit 4 false s.status t.status)

/-- R154: the zero budget, and the zero K that R154 says is a no-op too. -/
def Obligations.ZeroBudgetDisablesTheLimiter : Prop :=
  ∀ s : State, s.budget = 0#32 ∨ s.curPerCh = 0#16 →
    ∃ t, exec .limit s = .next t ∧ t = { s with status := t.status } ∧ OnlyBit 4 false s.status t.status

/-- R156 (a), (b), (c), (d): a LIMIT that scales raises no byte, keeps zero bytes and everything that is no channel byte, exceeds
no byte's exact scaled value by more than 1/2, and leaves an estimate `T'` with `2*T' <= 2*255*Bud + 3*N*K`; and LIMIT is not
idempotent: the two examples of (d). -/
def Obligations.LimitKeepsTheBudgetWithinRounding : Prop :=
  (∀ s : State, Memory.wf 0 s.wb = true → s.budget.toNat ≠ 0 → 255 * s.budget.toNat < s.estimate →
    ∃ t, exec .limit s = .next t ∧
      (∀ j, (t.wireByte j).toNat ≤ (s.wireByte j).toNat ∧ (s.wireByte j = 0 → t.wireByte j = 0)) ∧
      (∀ j, j < 4 ∨ j % 4 = 0 ∨ 4 + 4 * s.count ≤ j → t.wireByte j = s.wireByte j) ∧
      (∀ i < s.count, ∀ k ∈ [1, 2, 3], ((t.wireByte (4 + 4 * i + k)).toNat : ℚ) ≤
        ((s.wireByte (4 + 4 * i + k)).toNat : ℚ) * (s.budget.toNat / (s.estimate / 255)) + 1 / 2) ∧
      2 * t.estimate ≤ 2 * (255 * s.budget.toNat) + 3 * (s.count * s.curPerCh.toNat) ∧
      (t.estimate : ℚ) / 255 ≤ s.budget.toNat + 3 * s.count * s.curPerCh.toNat / 510) ∧
  (∃ s t u v : State, s.MemoryInv ∧ s.count = 1 ∧ s.curPerCh = 93#16 ∧ s.budget = 27#32 ∧
    s.record 0 = ⟨0xFF#8, 0x02#8, 0x01#8, 0x56#8⟩ ∧ s.estimate = 8277 ∧
    exec .limit s = .next t ∧ t.limited = true ∧ t.record 0 = ⟨0xFF#8, 0x02#8, 0x01#8, 0x48#8⟩ ∧ t.estimate = 6975 ∧
    exec .limit t = .next u ∧ u.limited = true ∧ u.record 0 = ⟨0xFF#8, 0x02#8, 0x01#8, 0x47#8⟩ ∧ u.estimate = 6882 ∧
    exec .limit u = .next v ∧ v.limited = false ∧ v.record 0 = u.record 0) ∧
  ∃ s t u : State, s.MemoryInv ∧ s.count = 3 ∧ s.curPerCh = 20#16 ∧ s.budget = 90#32 ∧
    (∀ i < 3, s.record i = ⟨0xFF#8, 0xFF#8, 0xFF#8, 0xFF#8⟩) ∧ exec .limit s = .next t ∧ t.estimate = 23040 ∧
    exec .limit t = .next u ∧ u.wb = t.wb ∧ u.limited = true

/-- Derived from R150 to R152 (and 91_not_in_source.md N8): LIMIT sees N, K, BUDGET and the channel bytes and no brightness byte.
It scales exactly when BUDGET is not 0 and K times the sum of the channel bytes is over 255 * BUDGET; so two states that
differ in brightness bytes only get the same LIMITED and the same channel bytes, each keeping its own brightness bytes. -/
def Obligations.EstimateIgnoresBrightness : Prop :=
  ∀ s t : State, Memory.wf 0 s.wb = true → Memory.wf 0 t.wb = true → s.ledCount = t.ledCount → s.curPerCh = t.curPerCh →
    s.budget = t.budget →
    (∀ i < s.count, (s.record i).b = (t.record i).b ∧ (s.record i).g = (t.record i).g ∧ (s.record i).r = (t.record i).r) →
      ∃ s' t', exec .limit s = .next s' ∧ exec .limit t = .next t' ∧ s'.limited = t'.limited ∧
        (s'.limited = true ↔ s.budget ≠ 0#32 ∧ 255 * s.budget.toNat < s.curPerCh.toNat * ((List.range s.count).map fun i =>
          (t.record i).b.toNat + (t.record i).g.toNat + (t.record i).r.toNat).sum) ∧
        ∀ i < s.count, (s'.record i).b = (t'.record i).b ∧ (s'.record i).g = (t'.record i).g ∧
          (s'.record i).r = (t'.record i).r ∧ (s'.record i).brightness = (s.record i).brightness ∧
          (t'.record i).brightness = (t.record i).brightness

/-! ### RENDER, FRAME -/

/-- R173. -/
def Obligations.RenderPacksEveryPixel : Prop :=
  decode 0x00000004#32 = .command .render ∧
  ∀ s : State, ∃ t, exec .render s = .next t ∧ t = { s with wb := t.wb, status := t.status } ∧
    OnlyBit 5 true s.status t.status ∧
    (∀ i < s.count, t.record i =
      encodeRecord (remap (257 * (s.pixel i).r.toNat)) (remap (257 * (s.pixel i).g.toNat))
        (remap (257 * (s.pixel i).b.toNat))) ∧
    (∀ j, j < 4 → t.wireByte j = 0) ∧ (∀ j, 4 + 4 * s.count ≤ j → t.wireByte j = 0)

/-- R176. FRAME writes the wire buffer and its two flags only, and reads none of ARG0, ARG1, ARG2, RES0. -/
def Obligations.FrameIsRenderThenLimit : Prop :=
  decode 0x00000005#32 = .command .frame ∧ ∀ s : State, ∃ t u, exec .render s = .next t ∧ exec .frame s = .next u ∧
    (s.budget ≠ 0#32 → exec .limit t = .next u) ∧
    (s.budget = 0#32 → u = { t with status := u.status } ∧ OnlyBit 4 false t.status u.status ∧ exec .limit t = .next u) ∧
    u = { s with wb := u.wb, status := u.status } ∧ u.frameValid = true ∧
    ∀ a b c r : Word, exec .frame { s with arg0 := a, arg1 := b, arg2 := c, res0 := r } =
      .next { u with arg0 := a, arg1 := b, arg2 := c, res0 := r }

/-- Derived from R94, R173, R176: what FRAME leaves unchanged, and what it makes of each record. -/
def Obligations.FrameWritesOnlyTheBufferAndItsFlags : Prop :=
  ∀ s : State, ∃ t u, exec .render s = .next t ∧ exec .frame s = .next u ∧
    u = { s with wb := u.wb, status := u.status } ∧
    (∀ k < 32, k ≠ 4 → u.status.getLsbD k = if k = 5 then true else s.status.getLsbD k) ∧
    (∀ j, j < 4 ∨ 4 + 4 * s.count ≤ j → u.wireByte j = 0) ∧
    ∀ i < s.count, (u.record i).brightness = (t.record i).brightness ∧ (u.record i).b.toNat ≤ (t.record i).b.toNat ∧
      (u.record i).g.toNat ≤ (t.record i).g.toNat ∧ (u.record i).r.toNat ≤ (t.record i).r.toNat

/-- Derived from R177 (c): any number of white LEDs with the limiter disabled; every record byte is 0xFF. -/
def Obligations.WhiteFrameIsAllOnes : Prop :=
  ∀ s : State, s.budget = 0#32 → (∀ i < s.count, s.pixel i = ⟨255, 255, 255⟩) →
    ∃ u, exec .frame s = .next u ∧ ∀ j, u.wireByte j = if 4 ≤ j ∧ j < 4 + 4 * s.count then 0xFF#8 else 0x00#8

/-- Derived from R242: "a RENDER after LIMIT undoes the limiting"; and from R173, which writes every byte from the pixels: a
RENDER over a rendered buffer changes nothing of it. -/
def Obligations.RenderUndoesLimit : Prop :=
  ∀ s t u v : State, exec .limit s = .next t → exec .render t = .next u → exec .render s = .next v →
    u.wb = v.wb ∧ ∃ w, exec .render v = .next w ∧ w.wb = v.wb

/-- Derived from R232 (5): after FRAME or RENDER in a state with no error bit, the buffer is ready. -/
def Obligations.FrameMakesTheBufferReady : Prop :=
  ∀ s : State, s.noError = true →
    (∃ t, exec .frame s = .next t ∧ t.frameReady = true) ∧ ∃ t, exec .render s = .next t ∧ t.frameReady = true

/-! ### Registers -/

/-- Derived from R62 and R22 to R29: what a 32-bit read of each of the ten registers returns; it changes nothing. -/
def Obligations.RegisterReadsReturnTheirValues : Prop :=
  ∀ s : State,
    (Access.read32 0x00#32).ReadsAs s (.word 0#32) ∧ (Access.read32 0x04#32).ReadsAs s (.word s.status) ∧
    (Access.read32 0x08#32).ReadsAs s (.word s.ledCount) ∧
    (Access.read32 0x0C#32).ReadsAs s (.word (0#16 ++ s.curPerCh)) ∧
    (Access.read32 0x10#32).ReadsAs s (.word s.budget) ∧ (Access.read32 0x14#32).ReadsAs s (.word s.arg0) ∧
    (Access.read32 0x18#32).ReadsAs s (.word s.arg1) ∧ (Access.read32 0x1C#32).ReadsAs s (.word s.arg2) ∧
    (Access.read32 0x20#32).ReadsAs s (.word s.res0) ∧
    (Access.read32 0x24#32).ReadsAs s (.word (BitVec.ofNat 32 (4 * (s.count + 1) + (s.count + 15) / 16 + 1)))

/-- R29, R170. `ceil(N/16)` is `(N + 15) / 16` (R8). -/
def Obligations.BufLenReadsTheSizeLaw : Prop :=
  (∀ s : State, s.count ≤ 65535 →
    (Access.read32 0x24#32).ReadsAs s (.word (BitVec.ofNat 32 (4 * (s.count + 1) + (s.count + 15) / 16 + 1))) ∧
    4 * (s.count + 1) + (s.count + 15) / 16 + 1 < 2 ^ 32) ∧
  (∀ n, bufferLen n = 4 * (n + 1) + (n + 15) / 16 + 1 ∧ fillerLen n = (n + 15) / 16 + 1 ∧
    bufferLen n = 4 + 4 * n + fillerLen n) ∧
  (∀ (s : State) (v : Word), (Access.write32 0x24#32 v).IsBusError s) ∧ bufferLen State.reset.count = 5

/-- R24. -/
def Obligations.LedCountWriteClearsOnAChangeOnly : Prop :=
  State.reset.ledCount = 0x00000000#32 ∧ ∀ (s : State) (v : Word),
    (s.cfg.nmax.val < v.toNat →
      ∃ t, perform (.write32 0x08#32 v) s = .next t ∧ ErrorRecorded 1 2 s.status t.status ∧
        t = { s with status := t.status }) ∧
    (v.toNat ≤ s.cfg.nmax.val → v = s.ledCount → perform (.write32 0x08#32 v) s = .next s) ∧
    (v.toNat ≤ s.cfg.nmax.val → v ≠ s.ledCount →
      ∃ t, perform (.write32 0x08#32 v) s = .next t ∧
        t = { s with ledCount := v, pix := t.pix, wb := t.wb, status := t.status } ∧
        (∀ i, t.pixel i = ⟨0, 0, 0⟩) ∧ (∀ j, t.wireByte j = 0x00#8) ∧ bufferLen t.count = bufferLen v.toNat ∧
        ∀ k < 32, t.status.getLsbD k = if k = 4 ∨ k = 5 then false else s.status.getLsbD k) ∧
    (Access.read32 0x08#32).ReadsAs s (.word s.ledCount)

/-- R25: what a write stores; only LIMIT and FRAME read it. -/
def Obligations.CurPerChStoresItsLowHalf : Prop :=
  State.reset.curPerCh = 0x0000#16 ∧
  (∀ (s : State) (v : Word), ∃ t, perform (.write32 0x0C#32 v) s = .next t ∧
    t = { s with curPerCh := v.extractLsb' 0 16 } ∧
    (Access.read32 0x0C#32).ReadsAs t (.word (v &&& 0x0000FFFF#32))) ∧
  ∀ (i : Instr) (s t : State) (k : Half), i ≠ .limit → i ≠ .frame → exec i s = .next t →
    exec i { s with curPerCh := k } = .next { t with curPerCh := k }

/-- R26. -/
def Obligations.BudgetStoresAllBits : Prop :=
  State.reset.budget = 0x00000000#32 ∧
  ∀ (s : State) (v : Word), ∃ t, perform (.write32 0x10#32 v) s = .next t ∧ t = { s with budget := v } ∧
    (Access.read32 0x10#32).ReadsAs t (.word v) ∧ (v = 0#32 → ∃ u, exec .limit t = .next u ∧ u.wb = t.wb)

/-- R27: the three operand registers hold what is written, no command writes them, and only REMAP and ENCODE read them. -/
def Obligations.ArgRegistersAreTheHostsAlone : Prop :=
  State.reset.arg0 = 0x00000000#32 ∧ State.reset.arg1 = 0x00000000#32 ∧ State.reset.arg2 = 0x00000000#32 ∧
  (∀ (s : State) (v : Word),
    perform (.write32 0x14#32 v) s = .next { s with arg0 := v } ∧
    perform (.write32 0x18#32 v) s = .next { s with arg1 := v } ∧
    perform (.write32 0x1C#32 v) s = .next { s with arg2 := v }) ∧
  (∀ (i : Instr) (s t : State), exec i s = .next t → t.arg0 = s.arg0 ∧ t.arg1 = s.arg1 ∧ t.arg2 = s.arg2) ∧
  (∀ (i : Instr) (s t : State) (a b c : Word), i ≠ .remap → i ≠ .encode → exec i s = .next t →
    exec i { s with arg0 := a, arg1 := b, arg2 := c } = .next { t with arg0 := a, arg1 := b, arg2 := c }) ∧
  (∀ (s t : State) (b c : Word), exec .remap s = .next t →
    exec .remap { s with arg1 := b, arg2 := c } = .next { t with arg1 := b, arg2 := c }) ∧
  (∀ (s : State) (l : Nat), remapOperand s = .ok l → l = s.arg0.toNat) ∧
  ∀ (s : State) (r g b : Nat), encodeOperands s = .ok (r, g, b) → r = s.arg0.toNat ∧ g = s.arg1.toNat ∧ b = s.arg2.toNat

/-- R28: what changes RES0, over every step (the reset event is R230's), what it holds after a successful REMAP or ENCODE, and a
host write to it. -/
def Obligations.OnlyRemapAndEncodeWriteRes0 : Prop :=
  State.reset.res0 = 0x00000000#32 ∧
  (∀ s : State, s.arg0.toNat ≤ 0xFFFF → ∃ t, exec .remap s = .next t ∧ t.res0 = BitVec.ofNat 32 (remap s.arg0.toNat)) ∧
  (∀ s : State, s.arg0.toNat ≤ 0x1EE1 → s.arg1.toNat ≤ 0x1EE1 → s.arg2.toNat ≤ 0x1EE1 →
    let x := encodeRecord s.arg0.toNat s.arg1.toNat s.arg2.toNat
    ∃ t, exec .encode s = .next t ∧ t.res0.extractLsb' 24 8 = x.brightness ∧ t.res0.extractLsb' 16 8 = x.b ∧
      t.res0.extractLsb' 8 8 = x.g ∧ t.res0.extractLsb' 0 8 = x.r) ∧
  (∀ (s t : State) (e : PortEvent) (rest : List PortEvent), s.pending = e :: rest → step s = .next t →
    (e = .reset ∧ t.res0 = 0#32) ∨
    (e = .access (.write32 0x00#32 0x00000001#32) ∧ s.arg0.toNat ≤ 0xFFFF ∧
      t.res0 = BitVec.ofNat 32 (remap s.arg0.toNat)) ∨
    (e = .access (.write32 0x00#32 0x00000002#32) ∧ s.arg0.toNat ≤ 0x1EE1 ∧ s.arg1.toNat ≤ 0x1EE1 ∧
      s.arg2.toNat ≤ 0x1EE1 ∧ let x := encodeRecord s.arg0.toNat s.arg1.toNat s.arg2.toNat
        t.res0 = x.brightness ++ x.b ++ x.g ++ x.r) ∨
    t.res0 = s.res0) ∧
  ∀ (s : State) (v : Word), (Access.write32 0x20#32 v).IsBusError s ∧ (Access.read32 0x20#32).ReadsAs s (.word s.res0)

/-- R207 (with the STATUS write of R23): error bits are sticky, a STATUS write clears the ones it names and CAUSE when none is
left, and a second error keeps the other bits and overwrites CAUSE. -/
def Obligations.ErrorBitsAreStickyAndWriteOneToClear : Prop :=
  (∀ (s : State) (v : Word), ∃ t, perform (.write32 0x04#32 v) s = .next t ∧ t = { s with status := t.status } ∧
    (∀ k < 3, t.status.getLsbD k = (s.status.getLsbD k && !v.getLsbD k)) ∧
    (∀ k < 32, 3 ≤ k → ¬ (8 ≤ k ∧ k ≤ 11) → t.status.getLsbD k = s.status.getLsbD k) ∧
    ((∀ k < 3, t.status.getLsbD k = false) → ∀ k, 8 ≤ k → k ≤ 11 → t.status.getLsbD k = false) ∧
    ((∃ k < 3, t.status.getLsbD k = true) → ∀ k, 8 ≤ k → k ≤ 11 → t.status.getLsbD k = s.status.getLsbD k)) ∧
  (∀ (s t : State) (e : PortEvent) (rest : List PortEvent) (k : Nat), s.pending = e :: rest → step s = .next t → k < 3 →
    s.status.getLsbD k = true → t.status.getLsbD k = false →
      e = .reset ∨ ∃ v : Word, e = .access (.write32 0x04#32 v) ∧ v.getLsbD k = true) ∧
  (∀ (s : State) (e : BlockError), ErrorRecorded
    (match e with | .illegalCommand _ => 0 | .rangeError _ => 1 | .busError _ => 2)
    (match e with | .illegalCommand _ => 1 | .rangeError _ => 2 | .busError _ => 3) s.status (raise e s).status)

/-- Derived from R205: a step records one error, and then that is the whole change of STATUS; or it sets no error bit and leaves
CAUSE as it was or makes it 0. -/
def Obligations.AStepRecordsAtMostOneError : Prop :=
  ∀ s t : State, step s = .next t →
    (∃ k < 3, ErrorRecorded k (k + 1) s.status t.status) ∨
    ((∀ k < 3, t.status.getLsbD k = true → s.status.getLsbD k = true) ∧ (t.cause = s.cause ∨ t.cause = 0#4))

/-- R155: LIMITED is written by LIMIT and FRAME, cleared by reset and a change of N, and by nothing else. -/
def Obligations.LimitedReportsTheLastLimit : Prop :=
  (∀ s : State, ∃ t, exec .limit s = .next t ∧
    t.limited = (decide (s.budget.toNat ≠ 0) && decide (255 * s.budget.toNat < s.estimate))) ∧
  (∀ s : State, ∃ t u, exec .render s = .next t ∧ exec .frame s = .next u ∧
    u.limited = (decide (t.budget.toNat ≠ 0) && decide (255 * t.budget.toNat < t.estimate))) ∧
  (∀ (s t : State) (e : PortEvent) (rest : List PortEvent), s.pending = e :: rest → step s = .next t →
    (e = .reset → t.limited = false) ∧ (t.ledCount ≠ s.ledCount → t.limited = false) ∧
    (e ≠ .reset → t.ledCount = s.ledCount → e ≠ .access (.write32 0x00#32 0x00000003#32) →
      e ≠ .access (.write32 0x00#32 0x00000005#32) → t.limited = s.limited))

/-- R175: FRAME_VALID is set by RENDER and FRAME, cleared by reset and a change of N, and by nothing else; while it is 0 the
buffer is all zero. -/
def Obligations.FrameValidReportsARenderedBuffer : Prop :=
  ∀ (s t : State) (e : PortEvent) (rest : List PortEvent), s.pending = e :: rest → step s = .next t →
    (e = .access (.write32 0x00#32 0x00000004#32) ∨ e = .access (.write32 0x00#32 0x00000005#32) → t.frameValid = true) ∧
    (e = .reset → t.frameValid = false) ∧ (t.ledCount ≠ s.ledCount → t.frameValid = false) ∧
    (e ≠ .reset → t.ledCount = s.ledCount → e ≠ .access (.write32 0x00#32 0x00000004#32) →
      e ≠ .access (.write32 0x00#32 0x00000005#32) → t.frameValid = s.frameValid) ∧
    (s.Inv → t.frameValid = false → ∀ j, t.wireByte j = 0)

/-! ### The address map -/

/-- Derived from R60, R62, R65, R66: the addresses of each window are exactly those of the map; for every N up to 65535 no
address lies in two windows; and the ends of the largest windows. -/
def Obligations.WindowsNeverOverlap : Prop :=
  (∀ (n : Nat) (addr : Word),
    ((∃ r, regAt addr = some r) ↔ addr.toNat % 4 = 0 ∧ addr.toNat ≤ 0x24) ∧
    (∀ i, pixelAt n addr = some i ↔ i < n ∧ addr.toNat = 0x00010000 + 4 * i) ∧
    (∀ j, wireByteAt n addr = some j ↔ j < 4 * (n + 1) + (n + 15) / 16 + 1 ∧ addr.toNat = 0x00100000 + j) ∧
    ∀ j, wireWordAt n addr = some j ↔
      j % 4 = 0 ∧ j + 3 < 4 * (n + 1) + (n + 15) / 16 + 1 ∧ addr.toNat = 0x00100000 + j) ∧
  (∀ (n : Nat) (addr : Word), n ≤ 65535 →
    (∀ r, regAt addr = some r → pixelAt n addr = none ∧ wireByteAt n addr = none ∧ wireWordAt n addr = none) ∧
    (∀ i, pixelAt n addr = some i → wireByteAt n addr = none ∧ wireWordAt n addr = none ∧ addr.toNat + 3 ≤ 0x0004FFFF) ∧
    (∀ j, wireByteAt n addr = some j → addr.toNat ≤ 0x00141000) ∧
    ∀ j, wireWordAt n addr = some j → addr.toNat + 3 ≤ 0x00141000) ∧
  pixelAt 65535 0x00010000#32 = some 0 ∧ pixelAt 65535 0x0004FFF8#32 = some 65534 ∧
  wireByteAt 65535 0x00100000#32 = some 0 ∧ wireByteAt 65535 0x00141000#32 = some 266240 ∧
  wireByteAt 65535 0x00141001#32 = none

/-- R68, R203: an access that is not admitted is a BusError. -/
def Obligations.RefusedAccessesAreBusErrors : Prop :=
  ∀ (s : State) (a : Access), ¬ a.Admitted s.count → a.IsBusError s

/-- R63: every access at a reserved offset of the register page. -/
def Obligations.ReservedOffsetsAreBusErrors : Prop :=
  ∀ (s : State) (addr : Word), 0x28 ≤ addr.toNat → addr.toNat ≤ 0xFFFF →
    (Access.read8 addr).IsBusError s ∧ (Access.read32 addr).IsBusError s ∧
    (∀ v, (Access.write8 addr v).IsBusError s) ∧ ∀ v, (Access.write32 addr v).IsBusError s

/-- R64, R65: the pixel window, in every state with a canonical pixel RAM and N up to 65535; only RENDER and FRAME read the pixel
RAM. -/
def Obligations.PixelWindowReadsAndWritesPixels : Prop :=
  (∀ (i : Instr) (s t : State) (p : Memory Color), i ≠ .render → i ≠ .frame → exec i s = .next t →
    exec i { s with pix := p } = .next { t with pix := p }) ∧
  ∀ s : State, Memory.wf Color.black s.pix = true → s.count ≤ 65535 →
    (∀ i < s.count, let addr := BitVec.ofNat 32 (0x00010000 + 4 * i)
      (Access.read32 addr).ReadsAs s (.word (0#8 ++ (s.pixel i).r ++ (s.pixel i).g ++ (s.pixel i).b)) ∧
      ∀ w : Word, ∃ t, perform (.write32 addr w) s = .next t ∧ t = { s with pix := t.pix } ∧
        t.pixel i = ⟨w.extractLsb' 16 8, w.extractLsb' 8 8, w.extractLsb' 0 8⟩ ∧
        (∀ k, k ≠ i → t.pixel k = s.pixel k) ∧
        (Access.read32 addr).ReadsAs t (.word (w &&& 0x00FFFFFF#32))) ∧
    ∀ addr : Word, 0x00010000 ≤ addr.toNat → addr.toNat < 0x00100000 →
      (Access.read8 addr).IsBusError s ∧ (∀ v, (Access.write8 addr v).IsBusError s) ∧
      ((∀ i < s.count, addr.toNat ≠ 0x00010000 + 4 * i) →
        (Access.read32 addr).IsBusError s ∧ ∀ w, (Access.write32 addr w).IsBusError s)

/-- R66, R67: the wire-buffer window, for every N up to 65535. -/
def Obligations.WireWindowReadsTheBuffer : Prop :=
  ∀ s : State, s.count ≤ 65535 →
    (∀ j < bufferLen s.count, (Access.read8 (BitVec.ofNat 32 (0x00100000 + j))).ReadsAs s (.byte (s.wireByte j))) ∧
    (∀ j, j % 4 = 0 → j + 3 < bufferLen s.count → (Access.read32 (BitVec.ofNat 32 (0x00100000 + j))).ReadsAs s
      (.word (s.wireByte (j + 3) ++ s.wireByte (j + 2) ++ s.wireByte (j + 1) ++ s.wireByte j))) ∧
    ∀ addr : Word, 0x00100000 ≤ addr.toNat → let j := addr.toNat - 0x00100000
      (∀ v, (Access.write8 addr v).IsBusError s) ∧ (∀ v, (Access.write32 addr v).IsBusError s) ∧
      (bufferLen s.count ≤ j → (Access.read8 addr).IsBusError s) ∧
      (j % 4 ≠ 0 ∨ bufferLen s.count ≤ j + 3 → (Access.read32 addr).IsBusError s)

/-- Derived from R70: an admitted read changes nothing but what the host is told, so a second one returns the same. -/
def Obligations.AdmittedReadsHaveNoSideEffect : Prop :=
  ∀ (s : State) (a : Access), a.Admitted s.count → (∀ addr v, a ≠ .write32 addr v) →
    ∃ r, a.ReadsAs s r ∧ ∀ t, perform a s = .next t → a.ReadsAs t r

/-! ### Invariants and whole-machine rules -/

/-- Derived from R24, R65, R172, R174: every step keeps the memories' invariant: canonical lists, N at most NMAX, no pixel at or
above N, and the start frame and the filler 0 "at every point of every run" (R172). -/
def Obligations.StepKeepsTheMemoryInvariant : Prop :=
  ∀ s t : State, s.MemoryInv → step s = .next t → t.MemoryInv

/-- Derived from R23, R200, R207: every step keeps STATUS legal: reserved bits 0, CAUSE 0 to 3, and 0 exactly when no error bit
is set. -/
def Obligations.StepKeepsTheStatusInvariant : Prop :=
  ∀ s t : State, s.StatusInv → step s = .next t → t.StatusInv

/-- Derived from R95, R175: every step keeps the frame's invariant: while FRAME_VALID is 0 the buffer is all zero, and while it is
1 every record's brightness byte is 0xE1, 0xE2, 0xE4 or 0xFF. -/
def Obligations.StepKeepsTheFrameInvariant : Prop :=
  ∀ s t : State, s.MemoryInv → s.FrameInv → step s = .next t → t.FrameInv

/-- Derived from R230: the state after reset meets the invariants, for every value of the parameters. -/
def Obligations.ResetMeetsTheInvariants : Prop :=
  ∀ c : Config, (State.resetWith c).Inv

/-- Derived from R243, R76: if the host issues nothing that may rewrite the buffer (no RENDER, FRAME or LIMIT, no LED_COUNT write
that changes N, and no reset, which log 5 makes an event), then at every point of the queue (log 1) the buffer and N are those
of the beginning, and every read of a byte or word of the buffer returns what the buffer held at the beginning. -/
def Obligations.QuietTransmissionSeesOneFrame : Prop :=
  ∀ s : State, transmissionQuiet s.cfg.nmax.val s.ledCount s.pending = true →
    ∀ k ≤ s.pending.length, ∃ t : State, Sys2Proof.core.run k s = .next t ∧ t.pending = s.pending.drop k ∧ t.wb = s.wb ∧
      t.ledCount = s.ledCount ∧
      (∀ (addr : Word) (rest : List PortEvent) (j : Nat), t.pending = .access (.read8 addr) :: rest →
        j < bufferLen s.count → addr.toNat = 0x00100000 + j →
          step t = .next { t with pending := rest, replies := t.replies ++ [.byte (s.wireByte j)] }) ∧
      ∀ (addr : Word) (rest : List PortEvent) (j : Nat), s.count ≤ 65535 → t.pending = .access (.read32 addr) :: rest →
        j % 4 = 0 → j + 3 < bufferLen s.count → addr.toNat = 0x00100000 + j →
          step t = .next { t with pending := rest, replies := t.replies ++
            [.word (s.wireByte (j + 3) ++ s.wireByte (j + 2) ++ s.wireByte (j + 1) ++ s.wireByte j)] }

/-- Derived from R245: "No rule of the block's state depends on the interval". -/
def Obligations.FrameIntervalHasNoEffect : Prop :=
  ∀ (s t : State) (x : Nat), step s = .next t →
    step { s with cfg := { s.cfg with minFrameInterval := x } } =
      .next { t with cfg := { t.cfg with minFrameInterval := x } }

/-- Derived from R99, R100: the transactions of each line of a host program, for every register and every command. -/
def Obligations.LinesExpandToTheirTransactions : Prop :=
  (∀ (r : Reg) (v : Word), (Line.wr r v).expand = [.write32 r.offset v] ∧ (Line.rd r).expand = [.read32 r.offset]) ∧
  (Reg.cmd.offset = 0x00#32 ∧ Reg.status.offset = 0x04#32 ∧ Reg.ledCount.offset = 0x08#32 ∧ Reg.curPerCh.offset = 0x0C#32 ∧
    Reg.budget.offset = 0x10#32 ∧ Reg.arg0.offset = 0x14#32 ∧ Reg.arg1.offset = 0x18#32 ∧ Reg.arg2.offset = 0x1C#32 ∧
    Reg.res0.offset = 0x20#32 ∧ Reg.bufLen.offset = 0x24#32) ∧
  (∀ (rgb : BitVec 24) (i j : Nat),
    (Line.pixw i rgb).expand = [.write32 (BitVec.ofNat 32 (0x00010000 + 4 * i)) (0#8 ++ rgb)] ∧
    (Line.pixr i).expand = [.read32 (BitVec.ofNat 32 (0x00010000 + 4 * i))] ∧
    (Line.wbr8 j).expand = [.read8 (BitVec.ofNat 32 (0x00100000 + j))] ∧
    (Line.wbr32 j).expand = [.read32 (BitVec.ofNat 32 (0x00100000 + j))]) ∧
  (∀ i : Instr, (Line.command i).expand = [.write32 0x00#32 (match i with
    | .nop => 0x00000000#32
    | .remap => 0x00000001#32
    | .encode => 0x00000002#32
    | .limit => 0x00000003#32
    | .render => 0x00000004#32
    | .frame => 0x00000005#32)]) ∧
  ∀ x y z : Word,
    (Line.remapOf x).expand = [.write32 0x14#32 x, .write32 0x00#32 0x00000001#32] ∧
    (Line.encodeOf x y z).expand =
      [.write32 0x14#32 x, .write32 0x18#32 y, .write32 0x1C#32 z, .write32 0x00#32 0x00000002#32] ∧
    (Line.leds x).expand = [.write32 0x08#32 x] ∧
    (Line.power x y).expand = [.write32 0x0C#32 x, .write32 0x10#32 y] ∧
    Line.clrErr.expand = [.write32 0x04#32 0x00000007#32] ∧ (Line.cmd x).expand = [.write32 0x00#32 x]
end

