-- ==== Sys2Proof/Laws/Curve.lean ====
section
/-! SUPPORT. The remapper's and the encoder's functions: ranges, and that a multiplier always fits. -/

namespace Sys2Proof.Machine

/-- The constant of R115. -/
theorem cubicDen_eq : cubicDen = 281014394880375 := by norm_num [cubicDen, maxIn, lowCut]

theorem lowCut_eq : lowCut = 7650 := rfl

/-- Expansion stays in the remapper's domain (R110). -/
theorem expand_le (c : Byte) : expand c ≤ maxIn := by
  have := c.isLt
  unfold expand maxIn
  omega

/-- A linear intensity's cube is at most `maxIn`'s. -/
theorem cube_sub_le {l : Nat} (h : l ≤ maxIn) : l ^ 3 - lowCut ^ 3 ≤ cubicDen :=
  Nat.sub_le_sub_right (Nat.pow_le_pow_left h 3) _

/-- The curve's range (R111). -/
theorem remap_le_maxOut {l : Nat} (h : l ≤ maxIn) : remap l ≤ maxOut := by
  unfold remap
  split_ifs with hl
  · unfold remapLinear maxOut; rw [lowCut_eq] at hl; omega
  · have := cube_sub_le h
    unfold remapCubic
    rw [cubicDen_eq] at this ⊢
    simp only [outLow, lowCut_eq, maxOut] at this ⊢
    omega

/-- Fitting, as the three inequalities of R130. -/
theorem fits_iff {r g b m : Nat} :
    fits r g b m = true ↔ (b + m / 2) / m ≤ 255 ∧ (g + m / 2) / m ≤ 255 ∧ (r + m / 2) / m ≤ 255 := by
  simp only [fits, Bool.and_eq_true, decide_eq_true_eq, and_assoc]
  exact Iff.rfl

/-- 31 fits every lightness (R133). -/
theorem fits_31 {r g b : Nat} (hr : r ≤ maxOut) (hg : g ≤ maxOut) (hb : b ≤ maxOut) : fits r g b 31 = true := by
  simp only [maxOut] at hr hg hb
  rw [fits_iff]
  omega

/-- The chosen multiplier is one of the four, it fits, and no smaller one does (R130). -/
theorem multiplier_spec {r g b : Nat} (hr : r ≤ maxOut) (hg : g ≤ maxOut) (hb : b ≤ maxOut) :
    multiplier r g b ∈ multipliers ∧ fits r g b (multiplier r g b) = true ∧
      ∀ m ∈ multipliers, m < multiplier r g b → fits r g b m = false := by
  have h31 := fits_31 hr hg hb
  unfold multiplier multipliers
  by_cases h1 : fits r g b 1 = true
  · simp [h1]
  by_cases h2 : fits r g b 2 = true
  · simp [h1, h2]
  by_cases h4 : fits r g b 4 = true
  · simp [h1, h2, h4]
  · simp [h1, h2, h4, h31]

/-- A channel byte that fits is narrowed without loss. -/
theorem toNat_ofNat_of_le {n : Nat} (h : n ≤ 255) : (BitVec.ofNat 8 n).toNat = n := by
  rw [BitVec.toNat_ofNat]; exact Nat.mod_eq_of_lt (by omega)

end Sys2Proof.Machine
end

