-- ==== Sys2Proof/Laws/State.lean ====
section
/-! SUPPORT. One lemma per field per named update of State (Machine/Ops.lean), so that no later proof unfolds one. -/

namespace Sys2Proof.Machine

variable (s : State)

/-! ### setStatus -/

@[simp] theorem setStatus_cfg (w : Word) : (s.setStatus w).cfg = s.cfg := rfl
@[simp] theorem setStatus_status (w : Word) : (s.setStatus w).status = w := rfl
@[simp] theorem setStatus_ledCount (w : Word) : (s.setStatus w).ledCount = s.ledCount := rfl
@[simp] theorem setStatus_curPerCh (w : Word) : (s.setStatus w).curPerCh = s.curPerCh := rfl
@[simp] theorem setStatus_budget (w : Word) : (s.setStatus w).budget = s.budget := rfl
@[simp] theorem setStatus_arg0 (w : Word) : (s.setStatus w).arg0 = s.arg0 := rfl
@[simp] theorem setStatus_arg1 (w : Word) : (s.setStatus w).arg1 = s.arg1 := rfl
@[simp] theorem setStatus_arg2 (w : Word) : (s.setStatus w).arg2 = s.arg2 := rfl
@[simp] theorem setStatus_res0 (w : Word) : (s.setStatus w).res0 = s.res0 := rfl
@[simp] theorem setStatus_pix (w : Word) : (s.setStatus w).pix = s.pix := rfl
@[simp] theorem setStatus_wb (w : Word) : (s.setStatus w).wb = s.wb := rfl
@[simp] theorem setStatus_pending (w : Word) : (s.setStatus w).pending = s.pending := rfl
@[simp] theorem setStatus_replies (w : Word) : (s.setStatus w).replies = s.replies := rfl

/-! ### setRes0 -/

@[simp] theorem setRes0_cfg (w : Word) : (s.setRes0 w).cfg = s.cfg := rfl
@[simp] theorem setRes0_status (w : Word) : (s.setRes0 w).status = s.status := rfl
@[simp] theorem setRes0_ledCount (w : Word) : (s.setRes0 w).ledCount = s.ledCount := rfl
@[simp] theorem setRes0_curPerCh (w : Word) : (s.setRes0 w).curPerCh = s.curPerCh := rfl
@[simp] theorem setRes0_budget (w : Word) : (s.setRes0 w).budget = s.budget := rfl
@[simp] theorem setRes0_arg0 (w : Word) : (s.setRes0 w).arg0 = s.arg0 := rfl
@[simp] theorem setRes0_arg1 (w : Word) : (s.setRes0 w).arg1 = s.arg1 := rfl
@[simp] theorem setRes0_arg2 (w : Word) : (s.setRes0 w).arg2 = s.arg2 := rfl
@[simp] theorem setRes0_res0 (w : Word) : (s.setRes0 w).res0 = w := rfl
@[simp] theorem setRes0_pix (w : Word) : (s.setRes0 w).pix = s.pix := rfl
@[simp] theorem setRes0_wb (w : Word) : (s.setRes0 w).wb = s.wb := rfl
@[simp] theorem setRes0_pending (w : Word) : (s.setRes0 w).pending = s.pending := rfl
@[simp] theorem setRes0_replies (w : Word) : (s.setRes0 w).replies = s.replies := rfl

/-! ### setWire -/

@[simp] theorem setWire_cfg (m : List Host.Cell) : (s.setWire m).cfg = s.cfg := rfl
@[simp] theorem setWire_status (m : List Host.Cell) : (s.setWire m).status = s.status := rfl
@[simp] theorem setWire_ledCount (m : List Host.Cell) : (s.setWire m).ledCount = s.ledCount := rfl
@[simp] theorem setWire_curPerCh (m : List Host.Cell) : (s.setWire m).curPerCh = s.curPerCh := rfl
@[simp] theorem setWire_budget (m : List Host.Cell) : (s.setWire m).budget = s.budget := rfl
@[simp] theorem setWire_arg0 (m : List Host.Cell) : (s.setWire m).arg0 = s.arg0 := rfl
@[simp] theorem setWire_arg1 (m : List Host.Cell) : (s.setWire m).arg1 = s.arg1 := rfl
@[simp] theorem setWire_arg2 (m : List Host.Cell) : (s.setWire m).arg2 = s.arg2 := rfl
@[simp] theorem setWire_res0 (m : List Host.Cell) : (s.setWire m).res0 = s.res0 := rfl
@[simp] theorem setWire_pix (m : List Host.Cell) : (s.setWire m).pix = s.pix := rfl
@[simp] theorem setWire_wb (m : List Host.Cell) : (s.setWire m).wb = m := rfl
@[simp] theorem setWire_pending (m : List Host.Cell) : (s.setWire m).pending = s.pending := rfl
@[simp] theorem setWire_replies (m : List Host.Cell) : (s.setWire m).replies = s.replies := rfl

/-! ### setPixels -/

@[simp] theorem setPixels_cfg (m : Memory Color) : (s.setPixels m).cfg = s.cfg := rfl
@[simp] theorem setPixels_status (m : Memory Color) : (s.setPixels m).status = s.status := rfl
@[simp] theorem setPixels_ledCount (m : Memory Color) : (s.setPixels m).ledCount = s.ledCount := rfl
@[simp] theorem setPixels_curPerCh (m : Memory Color) : (s.setPixels m).curPerCh = s.curPerCh := rfl
@[simp] theorem setPixels_budget (m : Memory Color) : (s.setPixels m).budget = s.budget := rfl
@[simp] theorem setPixels_arg0 (m : Memory Color) : (s.setPixels m).arg0 = s.arg0 := rfl
@[simp] theorem setPixels_arg1 (m : Memory Color) : (s.setPixels m).arg1 = s.arg1 := rfl
@[simp] theorem setPixels_arg2 (m : Memory Color) : (s.setPixels m).arg2 = s.arg2 := rfl
@[simp] theorem setPixels_res0 (m : Memory Color) : (s.setPixels m).res0 = s.res0 := rfl
@[simp] theorem setPixels_pix (m : Memory Color) : (s.setPixels m).pix = m := rfl
@[simp] theorem setPixels_wb (m : Memory Color) : (s.setPixels m).wb = s.wb := rfl
@[simp] theorem setPixels_pending (m : Memory Color) : (s.setPixels m).pending = s.pending := rfl
@[simp] theorem setPixels_replies (m : Memory Color) : (s.setPixels m).replies = s.replies := rfl

/-! ### setPending -/

@[simp] theorem setPending_cfg (es : List PortEvent) : (s.setPending es).cfg = s.cfg := rfl
@[simp] theorem setPending_status (es : List PortEvent) : (s.setPending es).status = s.status := rfl
@[simp] theorem setPending_ledCount (es : List PortEvent) : (s.setPending es).ledCount = s.ledCount := rfl
@[simp] theorem setPending_curPerCh (es : List PortEvent) : (s.setPending es).curPerCh = s.curPerCh := rfl
@[simp] theorem setPending_budget (es : List PortEvent) : (s.setPending es).budget = s.budget := rfl
@[simp] theorem setPending_arg0 (es : List PortEvent) : (s.setPending es).arg0 = s.arg0 := rfl
@[simp] theorem setPending_arg1 (es : List PortEvent) : (s.setPending es).arg1 = s.arg1 := rfl
@[simp] theorem setPending_arg2 (es : List PortEvent) : (s.setPending es).arg2 = s.arg2 := rfl
@[simp] theorem setPending_res0 (es : List PortEvent) : (s.setPending es).res0 = s.res0 := rfl
@[simp] theorem setPending_pix (es : List PortEvent) : (s.setPending es).pix = s.pix := rfl
@[simp] theorem setPending_wb (es : List PortEvent) : (s.setPending es).wb = s.wb := rfl
@[simp] theorem setPending_pending (es : List PortEvent) : (s.setPending es).pending = es := rfl
@[simp] theorem setPending_replies (es : List PortEvent) : (s.setPending es).replies = s.replies := rfl

/-! ### reply -/

@[simp] theorem reply_cfg (r : Reply) : (s.reply r).cfg = s.cfg := rfl
@[simp] theorem reply_status (r : Reply) : (s.reply r).status = s.status := rfl
@[simp] theorem reply_ledCount (r : Reply) : (s.reply r).ledCount = s.ledCount := rfl
@[simp] theorem reply_curPerCh (r : Reply) : (s.reply r).curPerCh = s.curPerCh := rfl
@[simp] theorem reply_budget (r : Reply) : (s.reply r).budget = s.budget := rfl
@[simp] theorem reply_arg0 (r : Reply) : (s.reply r).arg0 = s.arg0 := rfl
@[simp] theorem reply_arg1 (r : Reply) : (s.reply r).arg1 = s.arg1 := rfl
@[simp] theorem reply_arg2 (r : Reply) : (s.reply r).arg2 = s.arg2 := rfl
@[simp] theorem reply_res0 (r : Reply) : (s.reply r).res0 = s.res0 := rfl
@[simp] theorem reply_pix (r : Reply) : (s.reply r).pix = s.pix := rfl
@[simp] theorem reply_wb (r : Reply) : (s.reply r).wb = s.wb := rfl
@[simp] theorem reply_pending (r : Reply) : (s.reply r).pending = s.pending := rfl
@[simp] theorem reply_replies (r : Reply) : (s.reply r).replies = s.replies ++ [r] := rfl

/-! ### setLimited -/

@[simp] theorem setLimited_cfg (b : Bool) : (s.setLimited b).cfg = s.cfg := rfl
@[simp] theorem setLimited_status (b : Bool) : (s.setLimited b).status = putBit limitedBit b s.status := rfl
@[simp] theorem setLimited_ledCount (b : Bool) : (s.setLimited b).ledCount = s.ledCount := rfl
@[simp] theorem setLimited_curPerCh (b : Bool) : (s.setLimited b).curPerCh = s.curPerCh := rfl
@[simp] theorem setLimited_budget (b : Bool) : (s.setLimited b).budget = s.budget := rfl
@[simp] theorem setLimited_arg0 (b : Bool) : (s.setLimited b).arg0 = s.arg0 := rfl
@[simp] theorem setLimited_arg1 (b : Bool) : (s.setLimited b).arg1 = s.arg1 := rfl
@[simp] theorem setLimited_arg2 (b : Bool) : (s.setLimited b).arg2 = s.arg2 := rfl
@[simp] theorem setLimited_res0 (b : Bool) : (s.setLimited b).res0 = s.res0 := rfl
@[simp] theorem setLimited_pix (b : Bool) : (s.setLimited b).pix = s.pix := rfl
@[simp] theorem setLimited_wb (b : Bool) : (s.setLimited b).wb = s.wb := rfl
@[simp] theorem setLimited_pending (b : Bool) : (s.setLimited b).pending = s.pending := rfl
@[simp] theorem setLimited_replies (b : Bool) : (s.setLimited b).replies = s.replies := rfl

/-! ### setFrameValid -/

@[simp] theorem setFrameValid_cfg (b : Bool) : (s.setFrameValid b).cfg = s.cfg := rfl
@[simp] theorem setFrameValid_status (b : Bool) : (s.setFrameValid b).status = putBit frameValidBit b s.status := rfl
@[simp] theorem setFrameValid_ledCount (b : Bool) : (s.setFrameValid b).ledCount = s.ledCount := rfl
@[simp] theorem setFrameValid_curPerCh (b : Bool) : (s.setFrameValid b).curPerCh = s.curPerCh := rfl
@[simp] theorem setFrameValid_budget (b : Bool) : (s.setFrameValid b).budget = s.budget := rfl
@[simp] theorem setFrameValid_arg0 (b : Bool) : (s.setFrameValid b).arg0 = s.arg0 := rfl
@[simp] theorem setFrameValid_arg1 (b : Bool) : (s.setFrameValid b).arg1 = s.arg1 := rfl
@[simp] theorem setFrameValid_arg2 (b : Bool) : (s.setFrameValid b).arg2 = s.arg2 := rfl
@[simp] theorem setFrameValid_res0 (b : Bool) : (s.setFrameValid b).res0 = s.res0 := rfl
@[simp] theorem setFrameValid_pix (b : Bool) : (s.setFrameValid b).pix = s.pix := rfl
@[simp] theorem setFrameValid_wb (b : Bool) : (s.setFrameValid b).wb = s.wb := rfl
@[simp] theorem setFrameValid_pending (b : Bool) : (s.setFrameValid b).pending = s.pending := rfl
@[simp] theorem setFrameValid_replies (b : Bool) : (s.setFrameValid b).replies = s.replies := rfl

/-! ### Readers over the updates -/

@[simp] theorem setStatus_count (w : Word) : (s.setStatus w).count = s.count := rfl
@[simp] theorem setStatus_wireByte (w : Word) (j : Nat) : (s.setStatus w).wireByte j = s.wireByte j := rfl
@[simp] theorem setStatus_pixel (w : Word) (i : Nat) : (s.setStatus w).pixel i = s.pixel i := rfl
@[simp] theorem setRes0_count (w : Word) : (s.setRes0 w).count = s.count := rfl
@[simp] theorem setRes0_wireByte (w : Word) (j : Nat) : (s.setRes0 w).wireByte j = s.wireByte j := rfl
@[simp] theorem setRes0_pixel (w : Word) (i : Nat) : (s.setRes0 w).pixel i = s.pixel i := rfl
@[simp] theorem setWire_count (m : List Host.Cell) : (s.setWire m).count = s.count := rfl
@[simp] theorem setWire_pixel (m : List Host.Cell) (i : Nat) : (s.setWire m).pixel i = s.pixel i := rfl
@[simp] theorem setPixels_count (m : Memory Color) : (s.setPixels m).count = s.count := rfl
@[simp] theorem setPixels_wireByte (m : Memory Color) (j : Nat) : (s.setPixels m).wireByte j = s.wireByte j := rfl
@[simp] theorem setPending_count (es : List PortEvent) : (s.setPending es).count = s.count := rfl
@[simp] theorem setPending_wireByte (es : List PortEvent) (j : Nat) : (s.setPending es).wireByte j = s.wireByte j := rfl
@[simp] theorem setPending_pixel (es : List PortEvent) (i : Nat) : (s.setPending es).pixel i = s.pixel i := rfl
@[simp] theorem reply_count (r : Reply) : (s.reply r).count = s.count := rfl
@[simp] theorem reply_wireByte (r : Reply) (j : Nat) : (s.reply r).wireByte j = s.wireByte j := rfl
@[simp] theorem reply_pixel (r : Reply) (i : Nat) : (s.reply r).pixel i = s.pixel i := rfl
@[simp] theorem setLimited_count (b : Bool) : (s.setLimited b).count = s.count := rfl
@[simp] theorem setLimited_wireByte (b : Bool) (j : Nat) : (s.setLimited b).wireByte j = s.wireByte j := rfl
@[simp] theorem setLimited_pixel (b : Bool) (i : Nat) : (s.setLimited b).pixel i = s.pixel i := rfl
@[simp] theorem setFrameValid_count (b : Bool) : (s.setFrameValid b).count = s.count := rfl
@[simp] theorem setFrameValid_wireByte (b : Bool) (j : Nat) : (s.setFrameValid b).wireByte j = s.wireByte j := rfl
@[simp] theorem setFrameValid_pixel (b : Bool) (i : Nat) : (s.setFrameValid b).pixel i = s.pixel i := rfl
@[simp] theorem setWire_wireByte (m : List Host.Cell) (j : Nat) : (s.setWire m).wireByte j = Memory.read 0 m j := rfl
@[simp] theorem setPixels_pixel (m : Memory Color) (i : Nat) : (s.setPixels m).pixel i = Memory.read Color.black m i := rfl

@[simp] theorem raise_cfg (e : BlockError) : (raise e s).cfg = s.cfg := rfl
@[simp] theorem raise_ledCount (e : BlockError) : (raise e s).ledCount = s.ledCount := rfl
@[simp] theorem raise_curPerCh (e : BlockError) : (raise e s).curPerCh = s.curPerCh := rfl
@[simp] theorem raise_budget (e : BlockError) : (raise e s).budget = s.budget := rfl
@[simp] theorem raise_arg0 (e : BlockError) : (raise e s).arg0 = s.arg0 := rfl
@[simp] theorem raise_arg1 (e : BlockError) : (raise e s).arg1 = s.arg1 := rfl
@[simp] theorem raise_arg2 (e : BlockError) : (raise e s).arg2 = s.arg2 := rfl
@[simp] theorem raise_res0 (e : BlockError) : (raise e s).res0 = s.res0 := rfl
@[simp] theorem raise_pix (e : BlockError) : (raise e s).pix = s.pix := rfl
@[simp] theorem raise_wb (e : BlockError) : (raise e s).wb = s.wb := rfl
@[simp] theorem raise_pending (e : BlockError) : (raise e s).pending = s.pending := rfl
@[simp] theorem raise_replies (e : BlockError) : (raise e s).replies = s.replies := rfl
@[simp] theorem raise_status (e : BlockError) : (raise e s).status = statusAfterError e s.status := rfl
@[simp] theorem clearErrors_cfg (v : Word) : (clearErrors v s).cfg = s.cfg := rfl
@[simp] theorem clearErrors_ledCount (v : Word) : (clearErrors v s).ledCount = s.ledCount := rfl
@[simp] theorem clearErrors_curPerCh (v : Word) : (clearErrors v s).curPerCh = s.curPerCh := rfl
@[simp] theorem clearErrors_budget (v : Word) : (clearErrors v s).budget = s.budget := rfl
@[simp] theorem clearErrors_arg0 (v : Word) : (clearErrors v s).arg0 = s.arg0 := rfl
@[simp] theorem clearErrors_arg1 (v : Word) : (clearErrors v s).arg1 = s.arg1 := rfl
@[simp] theorem clearErrors_arg2 (v : Word) : (clearErrors v s).arg2 = s.arg2 := rfl
@[simp] theorem clearErrors_res0 (v : Word) : (clearErrors v s).res0 = s.res0 := rfl
@[simp] theorem clearErrors_pix (v : Word) : (clearErrors v s).pix = s.pix := rfl
@[simp] theorem clearErrors_wb (v : Word) : (clearErrors v s).wb = s.wb := rfl
@[simp] theorem clearErrors_pending (v : Word) : (clearErrors v s).pending = s.pending := rfl
@[simp] theorem clearErrors_replies (v : Word) : (clearErrors v s).replies = s.replies := rfl
@[simp] theorem clearErrors_status (v : Word) : (clearErrors v s).status = statusAfterWrite v s.status := rfl

end Sys2Proof.Machine
end

