-- ==== Sys2Proof/Laws/Flags.lean ====
section
/-! SUPPORT. STATUS bit by bit: what each field update of Machine/Flags.lean leaves in every bit. -/

namespace Sys2Proof.Machine

theorem putBit_getLsbD (i : Nat) (b : Bool) (w : Word) (hi : i < 32) (k : Nat) :
    (putBit i b w).getLsbD k = if k = i then b else w.getLsbD k := by
  by_cases h : i = k
  · subst h; cases b <;> simp [putBit, hi]
  · have h' : ¬ k = i := fun e => h e.symm
    by_cases hk : k < 32
    · cases b
      · simp [putBit, hk, h']
      · simp [putBit, h', hk]
    · have := w.getLsbD_of_ge k (by omega)
      rw [if_neg h', this]; exact BitVec.getLsbD_of_ge _ _ (by omega)

/-- The mask that takes CAUSE out leaves exactly the bits outside [11:8]. -/
theorem causeMask_getLsbD : ∀ k < 32, (~~~0x00000F00#32 : Word).getLsbD k = !(decide (8 ≤ k) && decide (k ≤ 11)) := by
  decide

theorem putCause_getLsbD (c : BitVec 4) (w : Word) (k : Nat) (hk : k < 32) :
    (putCause c w).getLsbD k = if 8 ≤ k ∧ k ≤ 11 then c.getLsbD (k - 8) else w.getLsbD k := by
  unfold putCause
  rw [BitVec.getLsbD_or, BitVec.getLsbD_and, causeMask_getLsbD k hk, BitVec.getLsbD_shiftLeft, BitVec.getLsbD_setWidth]
  by_cases h : 8 ≤ k ∧ k ≤ 11
  · have h1 : ¬ k < 8 := by omega
    have h2 : k - 8 < 32 := by omega
    simp [h, hk, h1, h2]
  · rw [if_neg h]
    by_cases h8 : k < 8
    · have h2 : ¬ 8 ≤ k := by omega
      simp [hk, h8, h2]
    · have h2 : ¬ k ≤ 11 := by omega
      have h3 : c.getLsbD (k - 8) = false := BitVec.getLsbD_of_ge _ _ (by omega)
      simp [hk, h2, h3]

/-- CAUSE is what was put there. -/
theorem causeField_putCause (c : BitVec 4) (w : Word) : causeField (putCause c w) = c := by
  apply BitVec.eq_of_getLsbD_eq
  intro k hk
  unfold causeField
  rw [BitVec.getLsbD_extractLsb', putCause_getLsbD _ _ _ (by omega), if_pos (by omega)]
  simp [hk]

/-- A bit outside [11:8] leaves CAUSE alone. -/
theorem causeField_putBit (i : Nat) (b : Bool) (w : Word) (hi : i < 32) (h : i < 8 ∨ 11 < i) :
    causeField (putBit i b w) = causeField w := by
  apply BitVec.eq_of_getLsbD_eq
  intro k hk
  unfold causeField
  rw [BitVec.getLsbD_extractLsb', BitVec.getLsbD_extractLsb', putBit_getLsbD _ _ _ hi, if_neg (by omega)]

theorem statusBit_lt (e : BlockError) : e.statusBit < 3 := by
  cases e <;> exact of_decide_eq_true rfl

/-- An error, bit by bit (60_exceptions.md R201 to R203). -/
theorem statusAfterError_getLsbD (e : BlockError) (w : Word) (k : Nat) (hk : k < 32) :
    (statusAfterError e w).getLsbD k =
      if k = e.statusBit then true else if 8 ≤ k ∧ k ≤ 11 then e.causeCode.getLsbD (k - 8) else w.getLsbD k := by
  have h3 := statusBit_lt e
  unfold statusAfterError
  rw [putCause_getLsbD _ _ _ hk, putBit_getLsbD _ _ _ (by omega)]
  split_ifs <;> first | rfl | omega

/-- The three error bits after a W1C write, before CAUSE is looked at. -/
theorem clearBit1_getLsbD (i : Nat) (v w : Word) (hi : i < 32) (k : Nat) :
    (clearBit1 i v w).getLsbD k = if k = i then w.getLsbD k && !v.getLsbD k else w.getLsbD k := by
  unfold clearBit1
  rw [putBit_getLsbD _ _ _ hi]
  split_ifs with h
  · rw [h]
  · rfl

/-- A write of `v` clears at least what it names: the three error bits (10_state.md R23). -/
theorem statusAfterWrite_low (v w : Word) (k : Nat) (hk : k < 8) :
    (statusAfterWrite v w).getLsbD k = if k < 3 then w.getLsbD k && !v.getLsbD k else w.getLsbD k := by
  have key : ∀ w' : Word, (if noErrorBits w' then putCause 0 w' else w').getLsbD k = w'.getLsbD k := by
    intro w'
    split_ifs
    · rw [putCause_getLsbD _ _ _ (by omega), if_neg (by omega)]
    · rfl
  unfold statusAfterWrite
  simp only [key]
  rw [clearBit1_getLsbD _ _ _ (by decide), clearBit1_getLsbD _ _ _ (by decide), clearBit1_getLsbD _ _ _ (by decide)]
  interval_cases k <;> rfl

/-- The bits above CAUSE are untouched by a write. -/
theorem statusAfterWrite_high (v w : Word) (k : Nat) (h : 12 ≤ k) (hk : k < 32) :
    (statusAfterWrite v w).getLsbD k = w.getLsbD k := by
  have key : ∀ w' : Word, (if noErrorBits w' then putCause 0 w' else w').getLsbD k = w'.getLsbD k := by
    intro w'
    split_ifs
    · rw [putCause_getLsbD _ _ _ hk, if_neg (by omega)]
    · rfl
  unfold statusAfterWrite
  simp only [key]
  have h2 : k ≠ errBusBit := by unfold errBusBit; omega
  have h1 : k ≠ errRangeBit := by unfold errRangeBit; omega
  have h0 : k ≠ errIllegalBit := by unfold errIllegalBit; omega
  rw [clearBit1_getLsbD _ _ _ (by decide), clearBit1_getLsbD _ _ _ (by decide), clearBit1_getLsbD _ _ _ (by decide),
    if_neg h2, if_neg h1, if_neg h0]

/-- CAUSE after a write: 0 when it leaves no error bit, else as before (R23). -/
theorem statusAfterWrite_cause (v w : Word) :
    causeField (statusAfterWrite v w) = if noErrorBits (statusAfterWrite v w) then 0 else causeField w := by
  have hn : ∀ w' : Word, noErrorBits (putCause 0 w') = noErrorBits w' := by
    intro w'
    unfold noErrorBits
    rw [putCause_getLsbD _ _ _ (by decide), putCause_getLsbD _ _ _ (by decide), putCause_getLsbD _ _ _ (by decide)]
    rfl
  have hc : ∀ i, i < 8 → ∀ w' : Word, causeField (clearBit1 i v w') = causeField w' :=
    fun i h w' => causeField_putBit i _ w' (by omega) (Or.inl h)
  unfold statusAfterWrite
  generalize hw : clearBit1 errBusBit v (clearBit1 errRangeBit v (clearBit1 errIllegalBit v w)) = w'
  have hw' : causeField w' = causeField w := by
    rw [← hw, hc _ (by decide), hc _ (by decide), hc _ (by decide)]
  by_cases h : noErrorBits w' = true
  · simp only [h, if_true, hn, causeField_putCause]
  · simp only [h, if_false, Bool.false_eq_true, hw']

end Sys2Proof.Machine
end

