-- ==== Sys2Proof/Laws/Memory.lean ====
section
/-! SUPPORT. The memory operations: what each leaves at every index, and that each keeps the canonical form. -/

namespace Sys2Proof.Machine

variable {α : Type} [DecidableEq α] {d : α}

theorem Memory.wfFrom_cons (lo k : Nat) (v : α) (m : Memory α) :
    Memory.wfFrom d lo ((k, v) :: m) = true ↔ lo ≤ k ∧ v ≠ d ∧ Memory.wfFrom d (k + 1) m = true := by
  simp [Memory.wfFrom, and_assoc]

theorem Memory.wfFrom_mono {lo lo' : Nat} (h : lo' ≤ lo) : ∀ {m : Memory α},
    Memory.wfFrom d lo m = true → Memory.wfFrom d lo' m = true
  | [], _ => rfl
  | (k, v) :: m, hm => by
    rw [Memory.wfFrom_cons] at hm ⊢
    exact ⟨by omega, hm.2⟩

/-- Below its first index a canonical memory reads as the default. -/
theorem Memory.read_below : ∀ {m : Memory α} {lo a : Nat}, Memory.wfFrom d lo m = true → a < lo → Memory.read d m a = d
  | [], _, _, _, _ => rfl
  | (k, v) :: m, lo, a, hm, ha => by
    rw [Memory.wfFrom_cons] at hm
    have : k ≠ a := by omega
    rw [Memory.read, if_neg this]
    exact Memory.read_below hm.2.2 (by omega)

/-- Read after write: the value written at its index, the old value everywhere else. -/
theorem Memory.read_write : ∀ {m : Memory α} {lo : Nat} (a : Nat) (v : α) (b : Nat), Memory.wfFrom d lo m = true →
    Memory.read d (Memory.write d m a v) b = if b = a then v else Memory.read d m b
  | [], _, a, v, b, _ => by
    by_cases hb : b = a
    · by_cases hv : v = d <;> simp [Memory.write, Memory.read, hv, hb]
    · have : a ≠ b := fun e => hb e.symm
      by_cases hv : v = d <;> simp [Memory.write, Memory.read, hv, hb, this]
  | (k, w) :: m, lo, a, v, b, hm => by
    have hm' := (Memory.wfFrom_cons lo k w m).1 hm
    have below : ∀ c, c ≤ k → Memory.read d m c = d := fun c hc => Memory.read_below hm'.2.2 (by omega)
    unfold Memory.write
    by_cases h1 : a < k
    · rw [if_pos h1]
      have hrd : Memory.read d ((k, w) :: m) a = d := by
        rw [Memory.read, if_neg (by omega)]; exact below a (by omega)
      by_cases hv : v = d
      · rw [if_pos hv]
        split_ifs with hb
        · rw [hb, hrd, hv]
        · rfl
      · rw [if_neg hv, Memory.read]
        by_cases hb : b = a
        · rw [if_pos hb.symm, if_pos hb]
        · rw [if_neg (fun e => hb e.symm), if_neg hb]
    · rw [if_neg h1]
      by_cases h2 : a = k
      · rw [if_pos h2]
        by_cases hv : v = d
        · rw [if_pos hv]
          by_cases hb : b = a
          · rw [if_pos hb, hb, below a (by omega), hv]
          · rw [if_neg hb, Memory.read, if_neg (by omega)]
        · rw [if_neg hv, Memory.read]
          by_cases hb : b = a
          · rw [if_pos hb.symm, if_pos hb]
          · rw [if_neg (fun e => hb e.symm), if_neg hb, Memory.read, if_neg (by omega)]
      · rw [if_neg h2, Memory.read, Memory.read, Memory.read_write a v b hm'.2.2]
        by_cases hk : k = b
        · rw [if_pos hk, if_pos hk, if_neg (by omega)]
        · rw [if_neg hk, if_neg hk]

theorem Memory.wfFrom_write : ∀ {m : Memory α} {lo : Nat} (a : Nat) (v : α), lo ≤ a → Memory.wfFrom d lo m = true →
    Memory.wfFrom d lo (Memory.write d m a v) = true
  | [], lo, a, v, ha, _ => by
    by_cases hv : v = d <;> simp [Memory.write, Memory.wfFrom, hv, ha]
  | (k, w) :: m, lo, a, v, ha, hm => by
    have hm' := (Memory.wfFrom_cons lo k w m).1 hm
    unfold Memory.write
    by_cases h1 : a < k
    · rw [if_pos h1]
      by_cases hv : v = d
      · rwa [if_pos hv]
      · rw [if_neg hv, Memory.wfFrom_cons, Memory.wfFrom_cons]
        exact ⟨ha, hv, by omega, hm'.2⟩
    · rw [if_neg h1]
      by_cases h2 : a = k
      · rw [if_pos h2]
        by_cases hv : v = d
        · rw [if_pos hv]; exact Memory.wfFrom_mono (by omega) hm'.2.2
        · rw [if_neg hv, Memory.wfFrom_cons]; exact ⟨ha, hv, h2 ▸ hm'.2.2⟩
      · rw [if_neg h2, Memory.wfFrom_cons]
        exact ⟨hm'.1, hm'.2.1, Memory.wfFrom_write a v (by omega) hm'.2.2⟩

theorem Memory.wf_write {m : Memory α} (a : Nat) (v : α) (hm : Memory.wf d m = true) :
    Memory.wf d (Memory.write d m a v) = true :=
  Memory.wfFrom_write a v (Nat.zero_le a) hm

theorem Memory.wfFrom_ofList : ∀ (vs : List α) (a : Nat), Memory.wfFrom d a (Memory.ofList d a vs) = true
  | [], _ => rfl
  | v :: vs, a => by
    unfold Memory.ofList
    split_ifs with hv
    · exact Memory.wfFrom_mono (Nat.le_succ a) (Memory.wfFrom_ofList vs (a + 1))
    · rw [Memory.wfFrom_cons]; exact ⟨le_refl a, hv, Memory.wfFrom_ofList vs (a + 1)⟩

theorem Memory.wf_ofList (vs : List α) (a : Nat) : Memory.wf d (Memory.ofList d a vs) = true :=
  Memory.wfFrom_mono (Nat.zero_le a) (Memory.wfFrom_ofList vs a)

/-- A memory built from a list holds the list from its first index on. -/
theorem Memory.read_ofList : ∀ (vs : List α) (a b : Nat), a ≤ b → Memory.read d (Memory.ofList d a vs) b = vs.getD (b - a) d
  | [], _, _, _ => by simp [Memory.ofList, Memory.read]
  | v :: vs, a, b, h => by
    have wf := Memory.wfFrom_ofList (d := d) vs (a + 1)
    unfold Memory.ofList
    rcases Nat.eq_or_lt_of_le h with rfl | hlt
    · split_ifs with hv
      · rw [Memory.read_below wf (Nat.lt_succ_self a), Nat.sub_self]; simp [hv]
      · simp [Memory.read]
    · have hb : b - a = (b - (a + 1)) + 1 := by omega
      have ih := Memory.read_ofList vs (a + 1) b hlt
      split_ifs with hv
      · rw [ih, hb]; simp
      · rw [Memory.read, if_neg (by omega), ih, hb]; simp

theorem Memory.wfFrom_update (f : Nat → α → α) : ∀ {m : Memory α} {lo : Nat}, Memory.wfFrom d lo m = true →
    Memory.wfFrom d lo (Memory.update d f m) = true
  | [], _, _ => rfl
  | (k, v) :: m, lo, hm => by
    have hm' := (Memory.wfFrom_cons lo k v m).1 hm
    have ih := Memory.wfFrom_update f hm'.2.2
    unfold Memory.update
    split_ifs with hv
    · exact Memory.wfFrom_mono (by omega) ih
    · rw [Memory.wfFrom_cons]; exact ⟨hm'.1, hv, ih⟩

theorem Memory.wf_update (f : Nat → α → α) {m : Memory α} (hm : Memory.wf d m = true) :
    Memory.wf d (Memory.update d f m) = true :=
  Memory.wfFrom_update f hm

/-- Where `f` keeps the default, an update is `f` at every index. -/
theorem Memory.read_update (f : Nat → α → α) (hf : ∀ a, f a d = d) : ∀ {m : Memory α} {lo : Nat} (a : Nat),
    Memory.wfFrom d lo m = true → Memory.read d (Memory.update d f m) a = f a (Memory.read d m a)
  | [], _, a, _ => by simp [Memory.update, Memory.read, hf]
  | (k, v) :: m, lo, a, hm => by
    have hm' := (Memory.wfFrom_cons lo k v m).1 hm
    have ih := Memory.read_update f hf a hm'.2.2
    unfold Memory.update
    by_cases hk : k = a
    · subst hk
      have hd : Memory.read d m k = d := Memory.read_below hm'.2.2 (Nat.lt_succ_self k)
      split_ifs with hv
      · rw [ih, hd, hf, Memory.read, if_pos rfl, hv]
      · rw [Memory.read, Memory.read, if_pos rfl, if_pos rfl]
    · split_ifs with hv
      · rw [ih, Memory.read, if_neg hk]
      · rw [Memory.read, Memory.read, if_neg hk, if_neg hk, ih]

/-- Two canonical memories that read alike are the same list. -/
theorem Memory.ext_read : ∀ {m n : Memory α} {lo : Nat}, Memory.wfFrom d lo m = true → Memory.wfFrom d lo n = true →
    (∀ a, Memory.read d m a = Memory.read d n a) → m = n
  | [], [], _, _, _, _ => rfl
  | [], (k, v) :: n, lo, _, hn, h => by
    have hn' := (Memory.wfFrom_cons lo k v n).1 hn
    have := h k; simp [Memory.read] at this; exact absurd this.symm hn'.2.1
  | (k, v) :: m, [], lo, hm, _, h => by
    have hm' := (Memory.wfFrom_cons lo k v m).1 hm
    have := h k; simp [Memory.read] at this; exact absurd this hm'.2.1
  | (k, v) :: m, (l, w) :: n, lo, hm, hn, h => by
    have hm' := (Memory.wfFrom_cons lo k v m).1 hm
    have hn' := (Memory.wfFrom_cons lo l w n).1 hn
    have hkl : k = l := by
      rcases Nat.lt_trichotomy k l with hlt | heq | hgt
      · have := h k
        rw [Memory.read, if_pos rfl, Memory.read, if_neg (by omega), Memory.read_below hn'.2.2 (by omega)] at this
        exact absurd this hm'.2.1
      · exact heq
      · have := h l
        rw [Memory.read, if_neg (by omega), Memory.read, if_pos rfl, Memory.read_below hm'.2.2 (by omega)] at this
        exact absurd this.symm hn'.2.1
    subst hkl
    have hvw : v = w := by have := h k; simpa [Memory.read] using this
    subst hvw
    have : m = n := Memory.ext_read hm'.2.2 hn'.2.2 fun a => by
      by_cases ha : k = a
      · subst ha
        rw [Memory.read_below hm'.2.2 (Nat.lt_succ_self k), Memory.read_below hn'.2.2 (Nat.lt_succ_self k)]
      · have := h a; rwa [Memory.read, Memory.read, if_neg ha, if_neg ha] at this
    rw [this]

/-- The memories of the state after reset are canonical. -/
theorem reset_memories_wf (c : Config) :
    Memory.wf Color.black (State.resetWith c).pix = true ∧ Memory.wf 0 (State.resetWith c).wb = true := ⟨rfl, rfl⟩

end Sys2Proof.Machine
end

