-- ==== Sys2Proof/Laws/Buffer.lean ====
section
/-! SUPPORT. The wire buffer byte by byte: what packing, rendering and limiting leave at every index. -/

namespace Sys2Proof.Machine

/-! ### Sums -/

theorem sumBelow_congr {n : Nat} {f g : Nat → Nat} (h : ∀ i < n, f i = g i) : sumBelow n f = sumBelow n g := by
  induction n with
  | zero => rfl
  | succ n ih => rw [sumBelow, sumBelow, ih fun i hi => h i (by omega), h n (by omega)]

theorem sumBelow_eq_sum (n : Nat) (f : Nat → Nat) : sumBelow n f = ((List.range n).map f).sum := by
  induction n with
  | zero => rfl
  | succ n ih => rw [sumBelow, ih, List.range_succ]; simp

/-! ### The limiter -/

theorem scale_zero (bud t : Nat) (h : 0 < t) : scale bud t 0 = 0 := by
  unfold scale; rw [Nat.div_eq_zero_iff]; omega

/-- Over the budget no byte grows (R153). -/
theorem scale_le {bud t c : Nat} (h : 255 * bud < t) : scale bud t c ≤ c := by
  unfold scale
  have h1 : 2 * c * 255 * bud ≤ 2 * c * t := by
    have := Nat.mul_le_mul_left (2 * c) (Nat.le_of_lt h)
    calc 2 * c * 255 * bud = 2 * c * (255 * bud) := by ring
      _ ≤ 2 * c * t := this
  have h2 : (2 * c * 255 * bud + t) / (2 * t) < c + 1 := by
    rw [Nat.div_lt_iff_lt_mul (by omega)]
    nlinarith
  omega

theorem exceeds_iff (s : State) :
    s.exceeds = true ↔ s.budget.toNat ≠ 0 ∧ 255 * s.budget.toNat < s.estimate := by
  simp [State.exceeds]

/-- The estimate as a sum over the records (R150). -/
theorem estimate_eq_sum (s : State) : s.estimate =
    s.curPerCh.toNat * ((List.range s.count).map fun i =>
      (s.record i).b.toNat + (s.record i).g.toNat + (s.record i).r.toNat).sum := by
  unfold State.estimate State.channelSum; rw [sumBelow_eq_sum]; rfl

/-- A byte of the scaled buffer (R152). -/
theorem scaledWire_read (s : State) (hw : Memory.wf 0 s.wb = true) (he : s.exceeds = true) (j : Nat) :
    Memory.read 0 s.scaledWire j =
      if isChannelByte s.count j then BitVec.ofNat 8 (scale s.budget.toNat s.estimate (s.wireByte j).toNat)
      else s.wireByte j := by
  have ht := ((exceeds_iff s).1 he).2
  unfold State.scaledWire
  rw [Memory.read_update (lo := 0) _ _ j hw]
  · rfl
  · intro a
    split_ifs
    · rw [show ((0 : Byte)).toNat = 0 from rfl, scale_zero _ _ (by omega)]; rfl
    · rfl

/-- A scaled channel byte, as a number. -/
theorem scaled_toNat (s : State) (he : s.exceeds = true) (c : Byte) :
    (BitVec.ofNat 8 (scale s.budget.toNat s.estimate c.toNat)).toNat = scale s.budget.toNat s.estimate c.toNat := by
  have h1 := scale_le (c := c.toNat) ((exceeds_iff s).1 he).2
  have := c.isLt
  exact toNat_ofNat_of_le (by omega)

/-- The channel bytes are the three bytes after each record's first (R152). -/
theorem isChannelByte_iff (n j : Nat) :
    isChannelByte n j = true ↔ ∃ i < n, ∃ k ∈ [1, 2, 3], j = 4 + 4 * i + k := by
  simp only [isChannelByte, Bool.and_eq_true, decide_eq_true_eq, List.mem_cons, List.not_mem_nil, or_false]
  constructor
  · rintro ⟨⟨h1, h2⟩, h3⟩
    exact ⟨(j - 4) / 4, by omega, (j - 4) % 4, by omega, by omega⟩
  · rintro ⟨i, hi, k, hk, rfl⟩
    omega

/-- LIMIT leaves everything but the wire buffer and LIMITED (R152). -/
theorem limitBuffer_frame (s : State) :
    limitBuffer s = { s with wb := (limitBuffer s).wb, status := putBit limitedBit s.exceeds s.status } := by
  unfold limitBuffer
  by_cases h : s.exceeds = true
  · rw [if_pos h, h]; rfl
  · rw [if_neg h, Bool.eq_false_iff.2 h]; rfl

theorem limitBuffer_wf (s : State) (hw : Memory.wf 0 s.wb = true) : Memory.wf 0 (limitBuffer s).wb = true := by
  unfold limitBuffer
  split_ifs
  · exact Memory.wf_update _ hw
  · exact hw

/-- A byte after LIMIT. -/
theorem limitBuffer_wireByte (s : State) (hw : Memory.wf 0 s.wb = true) (j : Nat) :
    (limitBuffer s).wireByte j =
      if s.exceeds && isChannelByte s.count j then
        BitVec.ofNat 8 (scale s.budget.toNat s.estimate (s.wireByte j).toNat)
      else s.wireByte j := by
  unfold limitBuffer
  by_cases h : s.exceeds = true
  · rw [if_pos h, h, Bool.true_and]
    exact scaledWire_read s hw h j
  · rw [if_neg h, Bool.eq_false_iff.2 h, Bool.false_and]; rfl

/-! ### The packer -/

theorem fillerLen_eq (n : Nat) : fillerLen n = (n + 15) / 16 + 1 := rfl

theorem bufferLen_eq (n : Nat) : bufferLen n = 4 + 4 * n + fillerLen n := by
  unfold bufferLen fillerLen; omega

theorem records_getD : ∀ (rs : List Record) (i k : Nat), k < 4 → i < rs.length →
    (rs.flatMap Record.bytes).getD (4 * i + k) 0 = ((rs[i]?.map Record.bytes).getD []).getD k 0
  | [], _, _, _, h => absurd h (Nat.not_lt_zero _)
  | x :: rs, 0, k, hk, _ => by
    rw [List.flatMap_cons, List.getD_append _ _ _ _ (by simpa [Record.bytes] using hk)]
    simp
  | x :: rs, i + 1, k, hk, h => by
    have hlen : x.bytes.length = 4 := rfl
    rw [List.flatMap_cons, List.getD_append_right _ _ _ _ (by omega), hlen,
      show 4 * (i + 1) + k - 4 = 4 * i + k by omega, records_getD rs i k hk (by simpa using h)]
    simp

theorem records_length (rs : List Record) : (rs.flatMap Record.bytes).length = 4 * rs.length := by
  induction rs with
  | nil => rfl
  | cons x rs ih => rw [List.flatMap_cons, List.length_append, ih]; simp [Record.bytes]; omega

/-- The size law of what RENDER packs (R170). -/
theorem packFrame_length (rs : List Record) : (packFrame rs).length = bufferLen rs.length := by
  rw [bufferLen_eq, packFrame, List.length_append, List.length_append, records_length, List.length_replicate,
    List.length_replicate]

/-- The start frame and the filler are zero (R172). -/
theorem packFrame_zero (rs : List Record) (j : Nat) (h : j < 4 ∨ 4 + 4 * rs.length ≤ j) : (packFrame rs).getD j 0 = 0 := by
  have hr := records_length rs
  unfold packFrame
  rcases h with h | h
  · rw [List.append_assoc, List.getD_append _ _ _ _ (by simpa using h), List.getD_replicate _ h]
  · rw [List.getD_append_right _ _ _ _ (by rw [List.length_append, hr, List.length_replicate]; exact h)]
    by_cases hj : j - (List.replicate 4 (0 : Byte) ++ rs.flatMap Record.bytes).length < fillerLen rs.length
    · rw [List.getD_replicate _ hj]
    · rw [List.getD_eq_default]; simpa using hj

/-- Record `i` of the packed frame (R32). -/
theorem packFrame_record (rs : List Record) (i k : Nat) (hk : k < 4) (hi : i < rs.length) :
    (packFrame rs).getD (4 + 4 * i + k) 0 = ((rs[i]?.map Record.bytes).getD []).getD k 0 := by
  have hr := records_length rs
  unfold packFrame
  rw [List.append_assoc, List.getD_append_right _ _ _ _ (by simp; omega), List.length_replicate,
    show 4 + 4 * i + k - 4 = 4 * i + k by omega, List.getD_append _ _ _ _ (by omega), records_getD rs i k hk hi]

theorem renderedRecords_length (s : State) : s.renderedRecords.length = s.count := by
  simp [State.renderedRecords]

/-- RENDER leaves everything but the wire buffer and FRAME_VALID (R173). -/
theorem renderBuffer_frame (s : State) :
    renderBuffer s = { s with wb := (renderBuffer s).wb, status := putBit frameValidBit true s.status } := rfl

theorem renderBuffer_wf (s : State) : Memory.wf 0 (renderBuffer s).wb = true := Memory.wf_ofList _ _

theorem renderBuffer_wireByte (s : State) (j : Nat) :
    (renderBuffer s).wireByte j = (packFrame s.renderedRecords).getD j 0 := by
  have := Memory.read_ofList (d := (0 : Byte)) (packFrame s.renderedRecords) 0 j (Nat.zero_le j)
  rwa [Nat.sub_zero] at this

theorem renderBuffer_zero (s : State) (j : Nat) (h : j < 4 ∨ 4 + 4 * s.count ≤ j) : (renderBuffer s).wireByte j = 0 := by
  rw [renderBuffer_wireByte]; exact packFrame_zero _ _ (by rwa [renderedRecords_length])

/-- Record `i` after RENDER is pixel `i`, remapped and encoded (R173). -/
theorem renderBuffer_record (s : State) (i : Nat) (hi : i < s.count) :
    (renderBuffer s).record i = renderRecord (s.pixel i) := by
  have hl : i < s.renderedRecords.length := by rwa [renderedRecords_length]
  have hi' : s.renderedRecords[i]? = some (renderRecord (s.pixel i)) := by
    simp [State.renderedRecords, hi]
  have key : ∀ k < 4, (renderBuffer s).wireByte (4 + 4 * i + k) = ((renderRecord (s.pixel i)).bytes).getD k 0 := by
    intro k hk
    rw [renderBuffer_wireByte, packFrame_record _ _ _ hk hl, hi']; rfl
  have h0 := key 0 (by decide)
  have h1 := key 1 (by decide)
  have h2 := key 2 (by decide)
  have h3 := key 3 (by decide)
  simp only [State.record, Nat.add_zero] at *
  rw [h0, h1, h2, h3]
  rfl

/-- FRAME is RENDER's state limited: with BUDGET 0 the limiter only clears LIMITED (R176). -/
theorem execFrame_eq (s : State) : execFrame s = .next (limitBuffer (renderBuffer s)) := by
  unfold execFrame
  by_cases h : (renderBuffer s).budget.toNat ≠ 0
  · exact if_pos h
  · have he : (renderBuffer s).exceeds = false := by
      rw [Bool.eq_false_iff, Ne, exceeds_iff]; exact fun hh => h hh.1
    show (if _ then _ else _) = _
    rw [if_neg h, limitBuffer, he]; rfl

end Sys2Proof.Machine
end

