-- ==== Sys2Proof/Laws/PerInstr.lean ====
section
/-! SUPPORT. The family RoundTrip: each command is well formed, its word is a well-formed command word, and decodes to it. -/

namespace Sys2Proof.Laws.RoundTrip

def Statement (i : Instr) : Prop :=
  i.wf = true ∧ commandWordWf (encode i) = true ∧ decode (encode i) = .command i ∧
    decodeTableWord 32 (encode i).toNat = some i

theorem nop : Statement .nop := by unfold Statement; decide
theorem remap : Statement .remap := by unfold Statement; decide
theorem encode : Statement .encode := by unfold Statement; decide
theorem limit : Statement .limit := by unfold Statement; decide
theorem render : Statement .render := by unfold Statement; decide
theorem frame : Statement .frame := by unfold Statement; decide

end Sys2Proof.Laws.RoundTrip
end

