-- ==== Sys2Proof/Laws/Port.lean ====
section
/-! SUPPORT. The address map as equivalences, and what one command, one access and one event can do: each always answers a
next state, whose fields are given by the shared operations. -/

namespace Sys2Proof.Machine

/-! ### The address map (20_memory.md R60) -/

theorem regAt_offset (r : Reg) : regAt r.offset = some r := by cases r <;> decide

theorem regAt_eq_some {addr : Word} {r : Reg} : regAt addr = some r ↔ addr = r.offset := by
  constructor
  · intro h
    have := List.find?_some h
    exact (eq_of_beq this).symm
  · rintro rfl; exact regAt_offset r

theorem offset_toNat_le (r : Reg) : r.offset.toNat ≤ 0x24 := by cases r <;> decide

theorem regAt_eq_none {addr : Word} : regAt addr = none ↔ ∀ r : Reg, addr ≠ r.offset := by
  constructor
  · intro h r hr
    rw [hr, regAt_offset] at h
    exact absurd h (by simp)
  · intro h
    cases hr : regAt addr with
    | none => rfl
    | some r => exact absurd (regAt_eq_some.1 hr) (h r)

/-- Above the defined offsets there is no register (R63). -/
theorem regAt_above {addr : Word} (h : 0x24 < addr.toNat) : regAt addr = none :=
  regAt_eq_none.2 fun r hr => by
    have := offset_toNat_le r
    rw [hr] at h; omega

theorem pixelAt_eq_some {n : Nat} {addr : Word} {i : Nat} :
    pixelAt n addr = some i ↔ i < n ∧ addr.toNat = 0x00010000 + 4 * i := by
  unfold pixelAt
  simp only [pixBase]
  split_ifs with h
  · rw [Option.some.injEq]; omega
  · simp only [false_iff]; omega

theorem pixelAt_eq_none {n : Nat} {addr : Word} :
    pixelAt n addr = none ↔ ∀ i < n, addr.toNat ≠ 0x00010000 + 4 * i := by
  rw [Option.eq_none_iff_forall_ne_some]
  exact ⟨fun h i hi ha => h i (pixelAt_eq_some.2 ⟨hi, ha⟩), fun h i hi => h i (pixelAt_eq_some.1 hi).1 (pixelAt_eq_some.1 hi).2⟩

theorem wireByteAt_eq_some {n : Nat} {addr : Word} {j : Nat} :
    wireByteAt n addr = some j ↔ j < bufferLen n ∧ addr.toNat = 0x00100000 + j := by
  unfold wireByteAt
  simp only [wireBase]
  split_ifs with h
  · rw [Option.some.injEq]; omega
  · simp only [false_iff]; omega

theorem wireByteAt_eq_none {n : Nat} {addr : Word} :
    wireByteAt n addr = none ↔ ∀ j < bufferLen n, addr.toNat ≠ 0x00100000 + j := by
  rw [Option.eq_none_iff_forall_ne_some]
  exact ⟨fun h i hi ha => h i (wireByteAt_eq_some.2 ⟨hi, ha⟩),
    fun h i hi => h i (wireByteAt_eq_some.1 hi).1 (wireByteAt_eq_some.1 hi).2⟩

theorem wireWordAt_eq_some {n : Nat} {addr : Word} {j : Nat} :
    wireWordAt n addr = some j ↔ j % 4 = 0 ∧ j + 3 < bufferLen n ∧ addr.toNat = 0x00100000 + j := by
  unfold wireWordAt
  simp only [wireBase]
  split_ifs with h
  · rw [Option.some.injEq]; omega
  · simp only [false_iff]; omega

theorem wireWordAt_eq_none {n : Nat} {addr : Word} :
    wireWordAt n addr = none ↔ ∀ j, j % 4 = 0 → j + 3 < bufferLen n → addr.toNat ≠ 0x00100000 + j := by
  rw [Option.eq_none_iff_forall_ne_some]
  exact ⟨fun h i h4 hi ha => h i (wireWordAt_eq_some.2 ⟨h4, hi, ha⟩),
    fun h i hi => h i (wireWordAt_eq_some.1 hi).1 (wireWordAt_eq_some.1 hi).2.1 (wireWordAt_eq_some.1 hi).2.2⟩

/-! ### Errors -/

/-- Taking an error records it as R201 to R203 say. -/
theorem raise_recorded (e : BlockError) (s : State) :
    ErrorRecorded e.statusBit e.causeCode.toNat s.status (raise e s).status := by
  intro k hk
  rw [raise_status, statusAfterError_getLsbD e s.status k hk]
  split_ifs with h1 h2
  · rfl
  · exact (BitVec.testBit_toNat e.causeCode).symm
  · rfl

/-! ### Commands -/

/-- What a command does, as a function: every arm of `exec` answers a next state. -/
theorem exec_cases (i : Instr) (s : State) :
    (i = .nop ∧ exec i s = .next s) ∨
    (∃ e, exec i s = .next (raise e s) ∧
      ((i = .remap ∧ remapOperand s = .error e) ∨ (i = .encode ∧ encodeOperands s = .error e))) ∨
    (i = .remap ∧ s.arg0.toNat ≤ 0xFFFF ∧ exec i s = .next (s.setRes0 (BitVec.ofNat 32 (remap s.arg0.toNat)))) ∨
    (i = .encode ∧ s.arg0.toNat ≤ 0x1EE1 ∧ s.arg1.toNat ≤ 0x1EE1 ∧ s.arg2.toNat ≤ 0x1EE1 ∧
      exec i s = .next (s.setRes0 (encodeRecord s.arg0.toNat s.arg1.toNat s.arg2.toNat).word)) ∨
    (i = .limit ∧ exec i s = .next (limitBuffer s)) ∨
    (i = .render ∧ exec i s = .next (renderBuffer s)) ∨
    (i = .frame ∧ exec i s = .next (limitBuffer (renderBuffer s))) := by
  cases i with
  | nop => exact .inl ⟨rfl, rfl⟩
  | remap =>
    by_cases h : s.arg0.toNat > maxIn
    · refine .inr (.inl ⟨.rangeError .arg0, ?_, .inl ⟨rfl, if_pos h⟩⟩)
      show execRemap s = _
      rw [execRemap, remapOperand, if_pos h]
    · refine .inr (.inr (.inl ⟨rfl, Nat.le_of_not_gt h, ?_⟩))
      show execRemap s = _
      rw [execRemap, remapOperand, if_neg h]
  | encode =>
    by_cases h0 : s.arg0.toNat > maxOut
    · refine .inr (.inl ⟨.rangeError .arg0, ?_, .inr ⟨rfl, if_pos h0⟩⟩)
      show execEncode s = _
      rw [execEncode, encodeOperands, if_pos h0]
    by_cases h1 : s.arg1.toNat > maxOut
    · refine .inr (.inl ⟨.rangeError .arg1, ?_, .inr ⟨rfl, by rw [encodeOperands, if_neg h0, if_pos h1]⟩⟩)
      show execEncode s = _
      rw [execEncode, encodeOperands, if_neg h0, if_pos h1]
    by_cases h2 : s.arg2.toNat > maxOut
    · refine .inr (.inl ⟨.rangeError .arg2, ?_, .inr ⟨rfl, by rw [encodeOperands, if_neg h0, if_neg h1, if_pos h2]⟩⟩)
      show execEncode s = _
      rw [execEncode, encodeOperands, if_neg h0, if_neg h1, if_pos h2]
    · refine .inr (.inr (.inr (.inl ⟨rfl, Nat.le_of_not_gt h0, Nat.le_of_not_gt h1, Nat.le_of_not_gt h2, ?_⟩)))
      show execEncode s = _
      rw [execEncode, encodeOperands, if_neg h0, if_neg h1, if_neg h2]
  | limit => exact .inr (.inr (.inr (.inr (.inl ⟨rfl, rfl⟩))))
  | render => exact .inr (.inr (.inr (.inr (.inr (.inl ⟨rfl, rfl⟩)))))
  | frame => exact .inr (.inr (.inr (.inr (.inr (.inr ⟨rfl, execFrame_eq s⟩)))))

/-! ### Accesses -/

/-- An 8-bit read: the byte of the wire buffer, or refused. -/
theorem perform_read8 (addr : Word) (s : State) :
    (∃ j, j < bufferLen s.count ∧ addr.toNat = 0x00100000 + j ∧
      perform (.read8 addr) s = .next (s.reply (.byte (s.wireByte j)))) ∨
    ((∀ j < bufferLen s.count, addr.toNat ≠ 0x00100000 + j) ∧
      perform (.read8 addr) s = .next ((raise (.busError addr) s).reply (.byte 0))) := by
  simp only [perform, read8Value]
  cases h : wireByteAt s.count addr with
  | none => exact .inr ⟨wireByteAt_eq_none.1 h, rfl⟩
  | some j => exact .inl ⟨j, (wireByteAt_eq_some.1 h).1, (wireByteAt_eq_some.1 h).2, rfl⟩

/-- A 32-bit read: a register, a pixel, four bytes of the wire buffer, or refused. -/
theorem perform_read32 (addr : Word) (s : State) :
    (∃ r : Reg, addr = r.offset ∧ perform (.read32 addr) s = .next (s.reply (.word (readReg r s)))) ∨
    (∃ i, i < s.count ∧ addr.toNat = 0x00010000 + 4 * i ∧
      perform (.read32 addr) s = .next (s.reply (.word (s.pixel i).word))) ∨
    (∃ j, j % 4 = 0 ∧ j + 3 < bufferLen s.count ∧ addr.toNat = 0x00100000 + j ∧
      perform (.read32 addr) s = .next (s.reply (.word (s.wireWord j)))) ∨
    ((∀ r : Reg, addr ≠ r.offset) ∧ (∀ i < s.count, addr.toNat ≠ 0x00010000 + 4 * i) ∧
      (∀ j, j % 4 = 0 → j + 3 < bufferLen s.count → addr.toNat ≠ 0x00100000 + j) ∧
      perform (.read32 addr) s = .next ((raise (.busError addr) s).reply (.word 0))) := by
  simp only [perform, read32Value]
  cases hr : regAt addr with
  | some r => exact .inl ⟨r, regAt_eq_some.1 hr, rfl⟩
  | none =>
    cases hp : pixelAt s.count addr with
    | some i => exact .inr (.inl ⟨i, (pixelAt_eq_some.1 hp).1, (pixelAt_eq_some.1 hp).2, rfl⟩)
    | none =>
      cases hj : wireWordAt s.count addr with
      | some j =>
        have := wireWordAt_eq_some.1 hj
        exact .inr (.inr (.inl ⟨j, this.1, this.2.1, this.2.2, rfl⟩))
      | none =>
        exact .inr (.inr (.inr ⟨regAt_eq_none.1 hr, pixelAt_eq_none.1 hp, wireWordAt_eq_none.1 hj, rfl⟩))

/-- A 32-bit write: a register, a pixel, or refused. -/
theorem perform_write32 (addr v : Word) (s : State) :
    (∃ r : Reg, addr = r.offset ∧ perform (.write32 addr v) s = writeReg r v s) ∨
    (∃ i, i < s.count ∧ addr.toNat = 0x00010000 + 4 * i ∧ perform (.write32 addr v) s = .next (writePixel i v s)) ∨
    ((∀ r : Reg, addr ≠ r.offset) ∧ (∀ i < s.count, addr.toNat ≠ 0x00010000 + 4 * i) ∧
      perform (.write32 addr v) s = .next (raise (.busError addr) s)) := by
  simp only [perform, write32]
  cases hr : regAt addr with
  | some r => exact .inl ⟨r, regAt_eq_some.1 hr, rfl⟩
  | none =>
    cases hp : pixelAt s.count addr with
    | some i => exact .inr (.inl ⟨i, (pixelAt_eq_some.1 hp).1, (pixelAt_eq_some.1 hp).2, rfl⟩)
    | none => exact .inr (.inr ⟨regAt_eq_none.1 hr, pixelAt_eq_none.1 hp, rfl⟩)

/-- A write to a register, by its offset. -/
theorem perform_write32_reg (r : Reg) (v : Word) (s : State) : perform (.write32 r.offset v) s = writeReg r v s := by
  simp only [perform, write32, regAt_offset]

/-- A read of a register, by its offset. -/
theorem perform_read32_reg (r : Reg) (s : State) :
    perform (.read32 r.offset) s = .next (s.reply (.word (readReg r s))) := by
  simp only [perform, read32Value, regAt_offset]

end Sys2Proof.Machine
end

