-- ==== Sys2Proof/Laws/Step.lean ====
section
/-! SUPPORT. One step by inversion: every way an event can go (`EventCases`), what each shared operation leaves alone, STATUS
through a step, and that what is queued later does not matter. -/

namespace Sys2Proof.Machine

/-! ### Commands -/

/-- Every command answers a next state (60_exceptions.md R206). -/
theorem exec_next (i : Instr) (s : State) : ∃ t, exec i s = .next t := by
  rcases exec_cases i s with ⟨_, h1⟩ | ⟨e, h1, _⟩ | ⟨_, _, h1⟩ | ⟨_, _, _, _, h1⟩ | ⟨_, h1⟩ | ⟨_, h1⟩
      | ⟨_, h1⟩ <;> exact ⟨_, h1⟩

/-- What no command writes. -/
theorem exec_frame {i s t} (h : exec i s = .next t) : t.pending = s.pending ∧ t.cfg = s.cfg ∧
    t.replies = s.replies ∧ t.ledCount = s.ledCount ∧ t.pix = s.pix := by
  rcases exec_cases i s with ⟨_, h1⟩ | ⟨e, h1, _⟩ | ⟨_, _, h1⟩ | ⟨_, _, _, _, h1⟩ | ⟨_, h1⟩ | ⟨_, h1⟩
      | ⟨_, h1⟩ <;> rw [h1] at h <;> cases h
  any_goals exact ⟨rfl, rfl, rfl, rfl, rfl⟩
  · rw [limitBuffer_frame]; exact ⟨rfl, rfl, rfl, rfl, rfl⟩
  · rw [limitBuffer_frame]; exact ⟨rfl, rfl, rfl, rfl, rfl⟩

/-- LIMIT raises no byte (42_power_limiter.md R156). -/
theorem limitBuffer_le (s : State) (hw : Memory.wf 0 s.wb = true) (j) :
    ((limitBuffer s).wireByte j).toNat ≤ (s.wireByte j).toNat := by
  rw [limitBuffer_wireByte s hw]
  split_ifs with h
  · have he : s.exceeds = true := by simp at h; exact h.1
    rw [scaled_toNat s he]; exact scale_le ((exceeds_iff s).1 he).2
  · exact le_refl _

/-- LIMIT leaves every byte that is no channel byte (R152). -/
theorem limitBuffer_other (s : State) (hw : Memory.wf 0 s.wb = true) (j) (h : j < 4 ∨ j % 4 = 0 ∨
    4 + 4 * s.count ≤ j) : (limitBuffer s).wireByte j = s.wireByte j := by
  rw [limitBuffer_wireByte s hw, if_neg]
  simp only [isChannelByte]; simp; omega

/-- STATUS after LIMIT, bit by bit. -/
theorem limitBuffer_getLsbD (s : State) (k) : (limitBuffer s).status.getLsbD k =
    if k = 4 then s.exceeds else s.status.getLsbD k := by
  rw [limitBuffer_frame]; exact putBit_getLsbD 4 _ _ (by decide) k

/-- STATUS after RENDER, bit by bit. -/
theorem renderBuffer_getLsbD (s : State) (k) : (renderBuffer s).status.getLsbD k =
    if k = 5 then true else s.status.getLsbD k := putBit_getLsbD 5 _ _ (by decide) k

/-- LIMITED after LIMIT is whether it scaled (42_power_limiter.md R155). -/
theorem limitBuffer_limited (s : State) : (limitBuffer s).limited = s.exceeds := by
  unfold State.limited; rw [limitBuffer_getLsbD, if_pos rfl]

/-! ### A LED_COUNT write -/

/-- What no LED_COUNT write writes. -/
theorem writeLedCount_frame (v : Word) (s : State) : (writeLedCount v s).pending = s.pending ∧
    (writeLedCount v s).cfg = s.cfg ∧ (writeLedCount v s).replies = s.replies ∧
    (writeLedCount v s).res0 = s.res0 := by
  unfold writeLedCount; split_ifs <;> exact ⟨rfl, rfl, rfl, rfl⟩

/-- STATUS after a LED_COUNT write (10_state.md R24). -/
theorem writeLedCount_status (v : Word) (s : State) : (writeLedCount v s).status = s.status ∨
    (writeLedCount v s).status = statusAfterError (.rangeError .ledCount) s.status ∨
    (writeLedCount v s).status = putBit 4 false (putBit 5 false s.status) := by
  unfold writeLedCount; split_ifs
  · exact .inr (.inl rfl)
  · exact .inl rfl
  · exact .inr (.inr rfl)

/-! ### STATUS -/

/-- An error leaves bits 3 to 7. -/
theorem statusAfterError_mid (x : BlockError) (w : Word) (k) (h1 : 3 ≤ k) (h2 : k < 8) :
    (statusAfterError x w).getLsbD k = w.getLsbD k := by
  have := statusBit_lt x
  rw [statusAfterError_getLsbD _ _ _ (by omega), if_neg (by omega), if_neg (by omega)]

/-- The bits of STATUS after a host write, CAUSE aside. -/
theorem statusAfterWrite_bits (v w : Word) :
    (∀ k < 3, (statusAfterWrite v w).getLsbD k = (w.getLsbD k && !v.getLsbD k)) ∧
   (∀ k < 32, 3 ≤ k → ¬ (8 ≤ k ∧ k ≤ 11) → (statusAfterWrite v w).getLsbD k = w.getLsbD k) := by
  refine ⟨fun k hk => by rw [statusAfterWrite_low _ _ _ (by omega), if_pos hk], fun k hk h3 h => ?_⟩
  by_cases h8 : k < 8
  · rw [statusAfterWrite_low _ _ _ h8, if_neg (by omega)]
  · rw [statusAfterWrite_high _ _ _ (by omega) hk]

/-- A bit of CAUSE as a bit of STATUS. -/
theorem getLsbD_cause (w : Word) (k : Nat) (h1 : 8 ≤ k) (h2 : k ≤ 11) :
    w.getLsbD k = (causeField w).getLsbD (k - 8) := by
  unfold causeField
  rw [BitVec.getLsbD_extractLsb', show 8 + (k - 8) = k by omega]
  simp [show k - 8 < 4 by omega]

/-- No error bit is set, bit by bit. -/
theorem noErrorBits_iff (w : Word) : noErrorBits w = true ↔ ∀ k < 3, w.getLsbD k = false := by
  unfold noErrorBits
  constructor
  · intro h k hk
    simp at h
    interval_cases k
    · exact h.1.1
    · exact h.1.2
    · exact h.2
  · intro h; rw [h 0 (by decide), h 1 (by decide), h 2 (by decide)]; rfl

/-- A LED_COUNT write either keeps N, both memories and the flags, or is a change of N (R24). -/
theorem writeLedCount_cases (v : Word) (s : State) : (writeLedCount v s).ledCount = s.ledCount ∧
    (writeLedCount v s).pix = s.pix ∧ (writeLedCount v s).wb = s.wb ∧
    (∀ k, 3 ≤ k → k < 8 → (writeLedCount v s).status.getLsbD k = s.status.getLsbD k) ∨
   ((writeLedCount v s).ledCount = v ∧ v ≠ s.ledCount ∧ v.toNat ≤ s.cfg.nmax.val ∧
       (writeLedCount v s).pix = [] ∧ (writeLedCount v s).wb = [] ∧
       (writeLedCount v s).status = putBit 4 false (putBit 5 false s.status)) := by
  unfold writeLedCount
  by_cases h0 : v.toNat > s.cfg.nmax.val
  · rw [if_pos h0]
    refine .inl ⟨rfl, rfl, rfl, fun k h1 h2 => ?_⟩
    rw [raise_status, statusAfterError_getLsbD _ _ _ (by omega)]
    have := statusBit_lt (.rangeError .ledCount)
    rw [if_neg (by omega), if_neg (by omega)]
  rw [if_neg h0]
  by_cases h1 : v = s.ledCount
  · rw [if_pos h1]; exact .inl ⟨rfl, rfl, rfl, fun _ _ _ => rfl⟩
  · rw [if_neg h1]; exact .inr ⟨rfl, h1, by omega, rfl, rfl, rfl⟩

/-! ### One event -/

/-- Every way the event `e` takes the state `s` to `t`. -/
inductive EventCases (e : PortEvent) (s t : State) : Prop
  | reset (h : e = .reset) (ht : t = applyReset s)
  | reply (a : Access) (he : e = .access a) (r : Reply) (ht : t = s.reply r) (hr : (∃ ad v, a = .read8 ad ∧
      r = .byte v) ∨ (∃ ad v, a = .read32 ad ∧ r = .word v))
  | busR (a : Access) (he : e = .access a) (addr : Word) (ht : t = (raise (.busError addr) s).reply (.byte 0) ∧
      (∃ ad, a = .read8 ad) ∨ t = (raise (.busError addr) s).reply (.word 0) ∧ (∃ ad, a = .read32 ad))
  | busW (a : Access) (he : e = .access a) (hw : (∃ ad v, a = .write8 ad v) ∨ ∃ ad v, a = .write32 ad v)
      (addr : Word) (ht : t = raise (.busError addr) s)
  | pix (i : Nat) (hi : i < s.count) (ad v : Word) (he : e = .access (.write32 ad v))
      (hreg : ∀ r : Reg, ad ≠ r.offset) (ht : t = writePixel i v s)
  | cmd (v : Word) (i : Instr) (he : e = .access (.write32 0x00#32 v)) (hd : decode v = .command i)
      (ht : exec i s = .next t)
  | ill (v : Word) (he : e = .access (.write32 0x00#32 v)) (r : Reject) (hr : decode v = .reject r)
      (ht : t = raise (.illegalCommand v) s)
  | status (v : Word) (he : e = .access (.write32 0x04#32 v)) (ht : t = clearErrors v s)
  | led (v : Word) (he : e = .access (.write32 0x08#32 v)) (ht : t = writeLedCount v s)
  | cur (v : Word) (he : e = .access (.write32 0x0C#32 v)) (ht : t = writeCurPerCh v s)
  | bud (v : Word) (he : e = .access (.write32 0x10#32 v)) (ht : t = writeBudget v s)
  | a0 (v : Word) (he : e = .access (.write32 0x14#32 v)) (ht : t = writeArg0 v s)
  | a1 (v : Word) (he : e = .access (.write32 0x18#32 v)) (ht : t = writeArg1 v s)
  | a2 (v : Word) (he : e = .access (.write32 0x1C#32 v)) (ht : t = writeArg2 v s)

/-- Every event answers a next state, in one of those ways. -/
theorem event_cases (e : PortEvent) (s : State) : ∃ t, performEvent e s = .next t ∧ EventCases e s t := by
  cases e with
  | reset => exact ⟨_, rfl, .reset rfl rfl⟩
  | access a =>
    cases a with
    | read8 addr =>
      rcases perform_read8 addr s with ⟨j, _, _, h⟩ | ⟨_, h⟩
      · exact ⟨_, h, .reply _ rfl _ rfl (.inl ⟨_, _, rfl, rfl⟩)⟩
      · exact ⟨_, h, .busR _ rfl addr (.inl ⟨rfl, _, rfl⟩)⟩
    | read32 addr =>
      rcases perform_read32 addr s with ⟨r, _, h⟩ | ⟨i, _, _, h⟩ | ⟨j, _, _, _, h⟩ | ⟨_, _, _, h⟩
      · exact ⟨_, h, .reply _ rfl _ rfl (.inr ⟨_, _, rfl, rfl⟩)⟩
      · exact ⟨_, h, .reply _ rfl _ rfl (.inr ⟨_, _, rfl, rfl⟩)⟩
      · exact ⟨_, h, .reply _ rfl _ rfl (.inr ⟨_, _, rfl, rfl⟩)⟩
      · exact ⟨_, h, .busR _ rfl addr (.inr ⟨rfl, _, rfl⟩)⟩
    | write8 addr v => exact ⟨_, rfl, .busW _ rfl (.inl ⟨_, _, rfl⟩) addr rfl⟩
    | write32 addr v =>
      rcases perform_write32 addr v s with ⟨r, rfl, h⟩ | ⟨i, hi, ha, h⟩ | ⟨_, _, h⟩
      · cases r with
        | cmd =>
          cases hd : decode v with
          | command i =>
            obtain ⟨t, ht⟩ := exec_next i s
            refine ⟨t, ?_, .cmd v i rfl hd ht⟩
            refine Eq.trans (b := performCommand v s) h ?_; rw [performCommand, hd]; exact ht
          | reject r =>
            refine ⟨_, ?_, .ill v rfl r hd rfl⟩
            refine Eq.trans (b := performCommand v s) h ?_; rw [performCommand, hd]
        | status => exact ⟨_, h, .status v rfl rfl⟩
        | ledCount => exact ⟨_, h, .led v rfl rfl⟩
        | curPerCh => exact ⟨_, h, .cur v rfl rfl⟩
        | budget => exact ⟨_, h, .bud v rfl rfl⟩
        | arg0 => exact ⟨_, h, .a0 v rfl rfl⟩
        | arg1 => exact ⟨_, h, .a1 v rfl rfl⟩
        | arg2 => exact ⟨_, h, .a2 v rfl rfl⟩
        | res0 => exact ⟨_, h, .busW _ rfl (.inr ⟨_, _, rfl⟩) _ rfl⟩
        | bufLen => exact ⟨_, h, .busW _ rfl (.inr ⟨_, _, rfl⟩) _ rfl⟩
      · exact ⟨_, h, .pix i hi addr v rfl (regAt_eq_none.1 (regAt_above (by omega))) rfl⟩
      · exact ⟨_, h, .busW _ rfl (.inr ⟨_, _, rfl⟩) addr rfl⟩

/-- Inversion of a step that has an event to perform. -/
theorem step_cases {s t : State} {e rest} (hp : s.pending = e :: rest) (h : step s = .next t) :
    EventCases e (s.setPending rest) t := by
  rw [step, hp] at h
  obtain ⟨t', h1, h2⟩ := event_cases e (s.setPending rest)
  have h3 := h1.symm.trans h
  cases h3; exact h2

/-- No event changes the parameters (log 3). -/
theorem EventCases.cfg_eq {e : PortEvent} {s t : State} (h : EventCases e s t) : t.cfg = s.cfg := by
  cases h with
  | busR a he addr ht => rcases ht with ⟨rfl, _⟩ | ⟨rfl, _⟩ <;> rfl
  | led v he ht => subst ht; exact (writeLedCount_frame v s).2.1
  | cmd v i he hd ht => exact (exec_frame ht).2.1
  | _ => subst t; rfl

/-- Every way STATUS goes in one event. -/
inductive StatusCases (e : PortEvent) (s t : State) : Prop
  | reset (h : e = .reset) (ht : t.status = 0)
  | same (ht : t.status = s.status)
  | err (x : BlockError) (ht : t.status = statusAfterError x s.status)
  | wr (v : Word) (h : e = .access (.write32 0x04#32 v)) (ht : t.status = statusAfterWrite v s.status)
  | flags (a b : Bool) (w : Word) (hw : ∀ k, k ≠ 4 → k ≠ 5 → w.getLsbD k = s.status.getLsbD k) (ht : t.status = w)

theorem status_cases {e s t} (h : EventCases e s t) : StatusCases e s t := by
  have pb : ∀ i b (w : Word), i = 4 ∨ i = 5 → ∀ k, k ≠ 4 → k ≠ 5 → (putBit i b w).getLsbD k = w.getLsbD k := by
    intro i b w hi k h4 h5
    rw [putBit_getLsbD _ _ _ (by omega), if_neg (by omega)]
  cases h with
  | reset h ht => exact .reset h (by rw [ht]; rfl)
  | busR a he addr ht => rcases ht with ⟨rfl, _⟩ | ⟨rfl, _⟩ <;> exact .err (.busError addr) rfl
  | busW a he hw addr ht => exact .err (.busError addr) (by rw [ht]; rfl)
  | ill v he r hr ht => exact .err _ (by rw [ht]; rfl)
  | status v he ht => exact .wr v he (by rw [ht]; rfl)
  | led v he ht =>
    subst ht
    rcases writeLedCount_status v s with h | h | h
    · exact .same h
    · exact .err _ h
    · refine .flags false false _ ?_ h
      intro k h4 h5
      rw [pb _ _ _ (.inl rfl) k h4 h5, pb _ _ _ (.inr rfl) k h4 h5]
  | cmd v i he hd ht =>
    rcases exec_cases i s with ⟨_, h1⟩ | ⟨er, h1, _⟩ | ⟨rfl, h0, h1⟩ | ⟨rfl, ha, hb, hc, h1⟩ | ⟨_, h1⟩
        | ⟨_, h1⟩ | ⟨_, h1⟩ <;> rw [h1] at ht <;> cases ht
    · exact .same rfl
    · exact .err er rfl
    · exact .same rfl
    · exact .same rfl
    · refine .flags false false _ ?_ rfl
      rw [limitBuffer_frame]; exact pb _ _ _ (.inl rfl)
    · exact .flags false false (putBit 5 true s.status) (pb _ _ _ (.inr rfl)) rfl
    · refine .flags false false _ ?_ rfl
      rw [limitBuffer_frame]
      intro k h4 h5
      exact (pb _ _ _ (.inl rfl) k h4 h5).trans (pb _ _ _ (.inr rfl) k h4 h5)
  | _ => subst t; exact .same rfl

/-! ### What is queued later -/

/-- LIMIT does not look at the queue. -/
theorem limitBuffer_setPending (s : State) (p) : limitBuffer (s.setPending p) = (limitBuffer s).setPending p := by
  have : (s.setPending p).exceeds = s.exceeds := rfl
  unfold limitBuffer; rw [this]; split <;> rfl

/-- A command does not look at the queue. -/
theorem exec_setPending (i : Instr) (s t : State) (p) (h : exec i s = .next t) :
    exec i (s.setPending p) = .next (t.setPending p) := by
  cases i with
  | nop => cases h; rfl
  | remap =>
    have h : execRemap s = .next t := h
    show execRemap _ = _
    unfold execRemap remapOperand at *
    by_cases h0 : s.arg0.toNat > maxIn
    · rw [if_pos h0] at h; rw [if_pos (show (s.setPending p).arg0.toNat > maxIn from h0)]; cases h; rfl
    · rw [if_neg h0] at h; rw [if_neg (show ¬ (s.setPending p).arg0.toNat > maxIn from h0)]; cases h; rfl
  | encode =>
    have h : execEncode s = .next t := h
    show execEncode _ = _
    unfold execEncode encodeOperands at *
    by_cases h0 : s.arg0.toNat > maxOut
    · rw [if_pos h0] at h; rw [if_pos (show (s.setPending p).arg0.toNat > maxOut from h0)]; cases h; rfl
    rw [if_neg h0] at h; rw [if_neg (show ¬ (s.setPending p).arg0.toNat > maxOut from h0)]
    by_cases h1 : s.arg1.toNat > maxOut
    · rw [if_pos h1] at h; rw [if_pos (show (s.setPending p).arg1.toNat > maxOut from h1)]; cases h; rfl
    rw [if_neg h1] at h; rw [if_neg (show ¬ (s.setPending p).arg1.toNat > maxOut from h1)]
    by_cases h2 : s.arg2.toNat > maxOut
    · rw [if_pos h2] at h; rw [if_pos (show (s.setPending p).arg2.toNat > maxOut from h2)]; cases h; rfl
    rw [if_neg h2] at h; rw [if_neg (show ¬ (s.setPending p).arg2.toNat > maxOut from h2)]; cases h; rfl
  | limit => cases h; show Host.Outcome.next _ = _; rw [limitBuffer_setPending]
  | render => cases h; rfl
  | frame =>
    have h : execFrame s = .next t := h
    rw [execFrame_eq] at h; cases h
    show execFrame _ = _
    rw [execFrame_eq]; congr 1; exact limitBuffer_setPending (renderBuffer s) p

/-- An event does not look at the queue. -/
theorem performEvent_setPending (e : PortEvent) (s t : State) (p) (h : performEvent e s = .next t) :
    performEvent e (s.setPending p) = .next (t.setPending p) := by
  cases e with
  | reset => cases h; rfl
  | access a =>
    have h : perform a s = .next t := h
    show perform a _ = _
    cases a with
    | read8 addr =>
      have k : read8Value addr (s.setPending p) = read8Value addr s := rfl
      simp only [perform, k] at *
      split at h <;> cases h <;> rfl
    | read32 addr =>
      have k : read32Value addr (s.setPending p) = read32Value addr s := by
        unfold read32Value; cases regAt addr with
        | some r => cases r <;> rfl
        | none => rfl
      simp only [perform, k] at *
      split at h <;> cases h <;> rfl
    | write8 addr v => cases h; rfl
    | write32 addr v =>
      simp only [perform, write32, setPending_count] at *
      cases hr : regAt addr with
      | none =>
        rw [hr] at h
        simp only at *
        cases hx : pixelAt s.count addr <;> rw [hx] at h <;> cases h <;> rfl
      | some r =>
        rw [hr] at h
        simp only at *
        cases r with
        | cmd =>
          simp only [writeReg, performCommand] at *
          cases hd : decode v with
          | command i => rw [hd] at h; exact exec_setPending i s t p h
          | reject r => rw [hd] at h; cases h; rfl
        | ledCount =>
          cases h
          show Host.Outcome.next (writeLedCount v (s.setPending p)) = _
          congr 1
          unfold writeLedCount
          by_cases h0 : v.toNat > s.cfg.nmax.val
          · rw [if_pos h0, if_pos (show v.toNat > (s.setPending p).cfg.nmax.val from h0)]; rfl
          rw [if_neg h0, if_neg (show ¬ v.toNat > (s.setPending p).cfg.nmax.val from h0)]
          by_cases h1 : v = s.ledCount
          · rw [if_pos h1, if_pos (show v = (s.setPending p).ledCount from h1)]
          · rw [if_neg h1, if_neg (show ¬ v = (s.setPending p).ledCount from h1)]; rfl
        | _ => cases h; rfl

/-- An event leaves the queue. -/
theorem performEvent_pending {e : PortEvent} {s t : State} (h : performEvent e s = .next t) :
    t.pending = s.pending := by
  have := performEvent_setPending e s t s.pending h
  have e2 : s.setPending s.pending = s := rfl
  rw [e2, h] at this
  have := Host.Outcome.next.inj this
  rw [this]; rfl

/-- A quiet queue is a quiet event and a quiet rest. -/
theorem transmissionQuiet_cons (nmax : Nat) (n : Word) (e : PortEvent) (es : List PortEvent) :
    transmissionQuiet nmax n (e :: es) = true ↔
      e.rewritesWire nmax n = false ∧ transmissionQuiet nmax n es = true := by
  simp [transmissionQuiet]

/-- A run of one step more. -/
theorem run_succ (M : Host.Core) (k : Nat) {s t : M.State} (h : M.step s = .next t) :
    M.run (k + 1) s = M.run k t := by
  simp only [Host.Core.run, h]

end Sys2Proof.Machine
end

