-- ==== Sys2Proof/Tests/Slice0.lean ====
section
/-! SUPPORT. Tests on fixed values, each expected result taken from a vector of 95_test_vectors.md or a rule's own table, and one
witness for each hypothesis (or clause) of the obligations. -/

namespace Sys2Proof.Tests

open Sys2Proof.Machine

/-! ### Small states and what a test looks at -/

/-- A block with NMAX = 150. -/
def block : State := State.resetWith ⟨150, 0⟩

/-- A block with these pixels. -/
def strip (ps : List Color) (k : Half) (bud : Word) : State :=
  { block with
    ledCount := BitVec.ofNat 32 ps.length
    curPerCh := k
    budget := bud
    pix := Memory.ofList Color.black 0 ps }

/-- A block whose wire buffer holds these records, FRAME_VALID set. -/
def packed (rs : List Record) (k : Half) (bud : Word) : State :=
  { block with
    status := 0x20
    ledCount := BitVec.ofNat 32 rs.length
    curPerCh := k
    budget := bud
    wb := Memory.ofList 0 0 (packFrame rs) }

/-- A block with these operands. -/
def operands (a b c : Word) : State := { block with arg0 := a, arg1 := b, arg2 := c, res0 := 0x55 }

/-- A block about to perform `a`. -/
def facing (a : Access) (s : State) : State := { s with pending := [.access a] }

/-- `p` of the next state, if there is one. -/
def next {β : Type} (o : Host.Outcome State Fault Refusal) (p : State → β) : Option β :=
  match o with
  | .next t => some (p t)
  | .fault _ => none
  | .refused _ => none

/-- The whole wire buffer. -/
def wire (s : State) : List Byte := (List.range (bufferLen s.count)).map s.wireByte

/-- RES0 and STATUS. -/
def result (s : State) : Word × Word := (s.res0, s.status)

/-- STATUS and the last datum returned. -/
def seen (s : State) : Word × Option Reply := (s.status, s.replies.getLast?)

/-! ### Well-formedness: a term each check refuses -/

/-- RSV not zero. -/
theorem test_wf_reserved_field : reservedFieldZero 0x00000010#32 = false ∧ commandWordWf 0x80000001#32 = false := by decide

/-- OP above 5. -/
theorem test_wf_opcode : opcodeDefined 0x00000006#32 = false ∧ commandWordWf 0x0000000F#32 = false := by decide

/-- The six words pass. -/
theorem test_wf_commands : [0, 1, 2, 3, 4, 5].all commandWordWf = true := by decide

/-- A line whose address is no 32-bit address. -/
theorem test_wf_line : (Line.pixw 0x3FFFC000 0).wf = false ∧ (Line.pixr 0x3FFFC000).wf = false ∧
    (Line.wbr8 0xFFF00000).wf = false ∧ (Line.wbr32 0xFFF00000).wf = false ∧ (Line.pixr 0x3FFFBFFF).wf = true := by decide

/-! ### Decoding: the words of 30_encoding.md R91, bit by bit `{RSV, OP}` -/

theorem test_decode_nop : decode (0b0000000000000000000000000000#28 ++ 0b0000#4) = .command .nop := by decide
theorem test_decode_remap : decode (0b0000000000000000000000000000#28 ++ 0b0001#4) = .command .remap := by decide
theorem test_decode_encode : decode (0b0000000000000000000000000000#28 ++ 0b0010#4) = .command .encode := by decide
theorem test_decode_limit : decode (0b0000000000000000000000000000#28 ++ 0b0011#4) = .command .limit := by decide
theorem test_decode_render : decode (0b0000000000000000000000000000#28 ++ 0b0100#4) = .command .render := by decide
theorem test_decode_frame : decode (0b0000000000000000000000000000#28 ++ 0b0101#4) = .command .frame := by decide

/-- R93: the reserved field is looked at first. -/
theorem test_decode_reject : decode 0x00000016#32 = .reject (.reservedField 1#28) ∧
    decode 0x00000006#32 = .reject (.reservedOpcode 6#4) := by decide

/-- The host's entry to the decoder. -/
theorem test_decodeTableWord : decodeTableWord 32 0x4 = some .render ∧ decodeTableWord 32 0x6 = none ∧
    decodeTableWord 64 0x4 = none := by decide

/-- What `withFetchWord` places is the next step. -/
theorem test_withFetchWord : next (step (State.reset.withFetchWord 32 0x4)) State.frameValid = some true := by decide

/-! ### Commands -/

/-- D-PK7. -/
theorem test_nop : next (exec .nop (operands 1 2 3)) (decide <| · = operands 1 2 3) = some true := by decide

/-- D-RM4, D-RM10, D-RM11, D-RM13, D-RM20, D-RM28. -/
theorem test_remap : [153, 7649, 7650, 7771, 32768, 65535].map (fun x => next (exec .remap (operands x 0 0)) State.res0) =
    [some 1, some 30, some 30, some 31, some 1003, some 7905] := by decide

/-- D-RM29, D-RM30. -/
theorem test_remap_range : [0x00010000, 0xFFFFFFFF].map (fun x => next (exec .remap (operands x 0 0)) result) =
    [some (0x55, 0x202), some (0x55, 0x202)] := by decide

/-- D-EN3, D-EN8, D-EN11, D-EN13, D-EN15: three different operands show each byte's place. -/
theorem test_encode :
    [(3, 5, 7), (300, 20, 3), (1021, 0, 0), (1022, 0, 0), (7905, 0, 1)].map
      (fun (r, g, b) => next (exec .encode (operands r g b)) State.res0) =
    [some 0xE1070503, some 0xE2020A96, some 0xE40000FF, some 0xFF000021, some 0xFF0000FF] := by decide

/-- D-EN17, D-EN18. -/
theorem test_encode_range : next (exec .encode (operands 7906 0 0)) result = some (0x55, 0x202) ∧
    encodeOperands (operands 0 0x1EE2 0xFFFFFFFF) = .error (.rangeError .arg1) := ⟨by decide, rfl⟩

/-- D-PL3. -/
theorem test_limit_scales :
    next (exec .limit (packed [⟨0xFF, 0, 0, 0xFF⟩, ⟨0xE4, 0, 0xFE, 0⟩] 60 20)) (fun t => (wire t, t.status)) =
      some ([0, 0, 0, 0, 0xFF, 0, 0, 0x2B, 0xE4, 0, 0x2A, 0, 0, 0], 0x30) := by decide

/-- D-PL4: equal is not excess. -/
theorem test_limit_equal :
    next (exec .limit (packed [⟨0xFF, 0, 0, 0x2B⟩, ⟨0xE4, 0, 0x2A, 0⟩] 60 20)) (fun t => (wire t, t.status)) =
      some ([0, 0, 0, 0, 0xFF, 0, 0, 0x2B, 0xE4, 0, 0x2A, 0, 0, 0], 0x20) := by decide

/-- D-PK3, D-PK4. -/
theorem test_render_small : next (exec .render block) (fun t => (wire t, t.status)) = some ([0, 0, 0, 0, 0], 0x20) ∧
    next (exec .render (strip [⟨1, 0, 0⟩] 0 0)) wire = some [0, 0, 0, 0, 0xE1, 0, 0, 1, 0, 0] := by decide

/-- The colour pixels 0x00FF8000, 0x00010203, 0x00B1272F of section 2.2. -/
theorem test_render_colors : next (exec .render (strip [⟨0xFF, 0x80, 0⟩, ⟨1, 2, 3⟩, ⟨0xB1, 0x27, 0x2F⟩] 0 0))
      (fun t => [t.wireWord 4, t.wireWord 8, t.wireWord 12]) = some [0xFF2100FF, 0x010203E1, 0x560102FF] := by decide

/-- D-PK6. -/
theorem test_frame_limited : next (exec .frame (strip [⟨255, 255, 255⟩] 20 1)) (fun t => (wire t, t.status)) =
    some ([0, 0, 0, 0, 0xFF, 4, 4, 4, 0, 0], 0x30) := by decide

/-- D-PK5, and line 14 of P4: BUDGET = 0 clears LIMITED. -/
theorem test_frame_unlimited :
    next (exec .frame (strip [⟨1, 0, 0⟩] 20 1)) (fun t => (wire t, t.status)) =
      some ([0, 0, 0, 0, 0xE1, 0, 0, 1, 0, 0], 0x20) ∧
    next (exec .frame { strip [⟨1, 0, 0⟩] 20 0 with status := 0x30 }) State.status = some 0x20 := by decide

/-! ### Host accesses -/

/-- P6, lines 1, 5 and 8: IllegalCommand, then RangeError, then one bit cleared. -/
theorem test_errors : next (step (facing (.write32 0 0x10) block)) State.status = some 0x101 ∧
    next (step (facing (.write32 8 0x10000) { block with status := 0x101 })) State.status = some 0x203 ∧
    next (step (facing (.write32 4 1) { block with status := 0x203 })) State.status = some 0x202 := by decide

/-- D-HA3, D-HA4. -/
theorem test_register_bits : next (step (facing (.write32 0x0C 0xFFFFFFFF) block)) (readReg .curPerCh) = some 0x0000FFFF ∧
    next (step (facing (.write32 4 0xFFFFFFFF) block)) State.status = some 0 := by decide

/-- D-HA8, D-HA10, D-HA11, D-HA13, D-HA15, D-HA17, D-HA18b. -/
theorem test_refused_reads :
    [Access.read8 0x08, .read32 0x06, .read32 0x28, .read32 0x10000, .read32 0x10002, .read8 0x100005, .read32 0x100004].map
      (fun a => next (step (facing a block)) seen) =
    [some (0x304, some (.byte 0)), some (0x304, some (.word 0)), some (0x304, some (.word 0)), some (0x304, some (.word 0)),
     some (0x304, some (.word 0)), some (0x304, some (.byte 0)), some (0x304, some (.word 0))] := by decide

/-- D-HA6, D-HA7, D-HA9, D-HA12, D-HA14, D-HA20. -/
theorem test_refused_writes :
    [Access.write32 0x20 5, .write32 0x24 5, .write8 0x08 1, .write32 0xFFFC 1, .write8 0x10000 1, .write8 0x100000 1].all
      (fun a => next (step (facing a block)) (fun t => decide (t = { block with status := 0x304 })) == some true) = true := by
  decide

/-- D-HA1, D-HA5, D-HA16, D-HA18. -/
theorem test_admitted_reads : [Access.read32 0x00, .read32 0x24, .read8 0x100000, .read32 0x100000].map
      (fun a => next (step (facing a block)) seen) =
    [some (0, some (.word 0)), some (0, some (.word 5)), some (0, some (.byte 0)), some (0, some (.word 0))] := by decide

/-- P6, lines 19 and 20; bits [31:24] are ignored (20_memory.md R64). -/
theorem test_pixel_write : next (step (facing (.write32 0x10004 0xAB123456) (strip [⟨0, 0, 0⟩, ⟨0, 0, 0⟩] 0 0)))
      (fun t => (t.pixel 1, (t.pixel 1).word)) = some (⟨0x12, 0x34, 0x56⟩, 0x00123456) := by decide

/-- D-PK8, D-PK9. -/
theorem test_ledCount :
    next (step (facing (.write32 8 2) { packed [⟨0xFF, 4, 4, 4⟩] 20 1 with status := 0x30 })) (fun t => (wire t, t.status)) =
      some (List.replicate 14 0, 0) ∧
    next (step (facing (.write32 8 1) { packed [⟨0xFF, 4, 4, 4⟩] 20 1 with status := 0x30 })) (fun t => (wire t, t.status)) =
      some ([0, 0, 0, 0, 0xFF, 4, 4, 4, 0, 0], 0x30) := by decide

/-- D-PK1. -/
theorem test_bufferLen : [0, 1, 15, 16, 17, 32, 150, 65535].map bufferLen = [5, 10, 66, 70, 75, 135, 615, 266241] := by decide

/-- R230: a reset event in any state. -/
theorem test_reset : next (step { packed [⟨0xFF, 4, 4, 4⟩] 20 1 with pending := [.reset] }) (decide <| · = block) = some true := by
  decide

/-! ### Host-program text (30_encoding.md R99, R100) -/

theorem test_parse_wr : parseLine "WR LED_COUNT, 0x96 ; N".toList = some [.wr .ledCount 150] := by decide
theorem test_parse_pixw : parseLine "PIXW 12, 0xFF8000".toList = some [.pixw 12 0xFF8000] := by decide
theorem test_parse_commands : parseLine "FRAME".toList = some [.command .frame] ∧
    parseLine "REMAP 1000".toList = some [.remapOf 1000] ∧ parseLine "; only a comment".toList = some [] := by decide
theorem test_parse_rejects : parseLine "PIXW 0, 0x1FF8000".toList = none ∧ parseLine "WR LED".toList = none ∧
    parseLine "PIXR 0x3FFFC000".toList = none := by decide

/-- R100: POWER is two writes. -/
theorem test_expand_power : (block.load [.power 20 90]).pending =
    [.access (.write32 0x0C 20), .access (.write32 0x10 90)] := by decide

/-! ### Witnesses

For every obligation with hypotheses: states and operands that meet them, each clause at the ends of its range. -/

/-- Three white LEDs (P4). -/
def white3 : State := strip [⟨255, 255, 255⟩, ⟨255, 255, 255⟩, ⟨255, 255, 255⟩] 20 90

/-- The largest N. -/
def largest : State := { State.resetWith ⟨65535, 0⟩ with ledCount := 0xFFFF }

/-- A frame of one record, rendered: D-PK6. -/
def framed : State := { packed [⟨0xFF, 4, 4, 4⟩] 20 1 with status := 0x30, pix := [(0, ⟨255, 255, 255⟩)] }

theorem witness_ResetPutsEveryPieceAtItsValue : ∃ (s : State) (rest : List PortEvent), s.pending = .reset :: rest ∧ s.ledCount = 1 :=
  ⟨{ framed with pending := [.reset] }, [], rfl, rfl⟩

theorem witness_ResetEventKeepsParametersAndHostSide : ∃ (s : State) (rest : List PortEvent), s.pending = .reset :: rest ∧ rest ≠ [] :=
  ⟨{ framed with pending := [.reset, .reset] }, [.reset], rfl, by decide⟩

theorem witness_StepPerformsTheOldestEvent :
    framed.pending = [] ∧ (facing (.read8 0) framed).pending = .access (.read8 0) :: [] := ⟨rfl, rfl⟩

theorem witness_StepRunsTheDecodedCommand :
    (facing (.write32 0 5) framed).pending = .access (.write32 0x00000000#32 5) :: [] ∧ decode 5 = .command .frame :=
  ⟨rfl, by decide⟩

/-- Each command's word, and the refused words at the ends of both ranges. -/
theorem witness_CommandWriteFollowsTheOpcodeMap :
    (∀ v, (facing (.write32 0 v) framed).pending = .access (.write32 0x00000000#32 v) :: []) ∧
    (0x10#32).extractLsb' 4 28 ≠ 0#28 ∧ (0xFFFFFFFF#32).extractLsb' 4 28 ≠ 0#28 ∧
    0x6 ≤ ((0x6#32).extractLsb' 0 4).toNat ∧ 0x6 ≤ ((0xF#32).extractLsb' 0 4).toNat ∧
    ¬ ((0x5#32).extractLsb' 4 28 ≠ 0#28 ∨ 0x6 ≤ ((0x5#32).extractLsb' 0 4).toNat) := ⟨fun _ => rfl, by decide⟩

/-- The smallest and the largest word with OP = 0 and an RSV bit set. -/
theorem witness_NopChangesNothing :
    ((0x10#32).extractLsb' 0 4 = 0#4 ∧ (0x10#32).extractLsb' 4 28 ≠ 0#28) ∧
    (0xFFFFFFF0#32).extractLsb' 0 4 = 0#4 ∧ (0xFFFFFFF0#32).extractLsb' 4 28 ≠ 0#28 := by decide

theorem witness_RemapWritesRes0OrRecordsRangeError :
    (operands 0 0 0).arg0.toNat ≤ 0xFFFF ∧ (operands 0xFFFF 0 0).arg0.toNat ≤ 0xFFFF ∧
    0xFFFF < (operands 0x10000 0 0).arg0.toNat ∧ 0xFFFF < (operands 0xFFFFFFFF 0 0).arg0.toNat := by decide

theorem witness_RemapIsTheSpecifiedCurve :
    (0 : Nat) < 7650 ∧ 7649 < 7650 ∧ (1 ≤ 1 ∧ 1 ≤ 30) ∧ (1 ≤ 30 ∧ 30 ≤ 30) ∧ (7650 ≤ 7650 ∧ 7650 ≤ 65535) ∧
    7650 ≤ 65535 ∧ 65535 ≤ 65535 := by decide

theorem witness_RemapIsMonotoneContinuousAndInRange :
    (65535 : Nat) ≤ 65535 ∧ (65534 < 65535 ∧ 65535 ≤ 65535) ∧ 65534 ≤ 65534 ∧ 7548 ≤ 7548 ∧ 7770 ≤ 7770 := by decide

/-- Both clauses: 0x1EE1 in every operand, 0x1EE2 in each; the smallest multiplier and a larger one. -/
theorem witness_EncodeWritesTheRecordOrRecordsRangeError :
    (operands 0x1EE1 0x1EE1 0x1EE1).arg0.toNat ≤ 0x1EE1 ∧ 0x1EE1 < (operands 0x1EE2 0 0).arg0.toNat ∧
    0x1EE1 < (operands 0 0x1EE2 0).arg1.toNat ∧ 0x1EE1 < (operands 0 0 0xFFFFFFFF).arg2.toNat ∧
    multiplier 0 0 0 = 1 ∧ multiplier 7905 7905 7905 = 31 := by decide

theorem witness_EncodeWritesTheRecordOrRecordsRangeError_order :
    0x1EE1 < (operands 0x1EE2 0x1EE2 0x1EE2).arg0.toNat ∧
    ((operands 0x1EE1 0x1EE2 0x1EE2).arg0.toNat ≤ 0x1EE1 ∧ 0x1EE1 < (operands 0x1EE1 0x1EE2 0x1EE2).arg1.toNat) ∧
    ((operands 0x1EE1 0x1EE1 0x1EE2).arg0.toNat ≤ 0x1EE1 ∧ (operands 0x1EE1 0x1EE1 0x1EE2).arg1.toNat ≤ 0x1EE1 ∧
      0x1EE1 < (operands 0x1EE1 0x1EE1 0x1EE2).arg2.toNat) := by decide

/-- The ends of the four ranges of the largest lightness. -/
theorem witness_MultiplierDependsOnTheLargestLightness :
    [0, 255, 256, 510, 511, 1021, 1022, 7905].map (fun l => multiplier 0 l 0) = [1, 1, 2, 2, 4, 4, 31, 31] := by decide

theorem witness_EncoderIsMinimalAndNear : (255 ≤ 7905 ∧ 255 ≤ 255) ∧ 7905 ≤ 7905 ∧ 2 ≤ multiplier 256 0 0 ∧
    multiplier 255 0 0 = 1 := by decide

/-- D-PL11 (258 > 255), D-PL10 (255 = 255), D-PL8 (disabled), in canonical buffers. -/
theorem witness_LimitScalesExactlyWhenOverBudget :
    Memory.wf 0 (packed [⟨0xE1, 1, 1, 1⟩] 86 1).wb = true ∧ (packed [⟨0xE1, 1, 1, 1⟩] 86 1).exceeds = true ∧
    (packed [⟨0xE1, 1, 1, 1⟩] 85 1).estimate = 255 * 1 ∧ (packed [⟨0xE1, 1, 1, 1⟩] 85 1).exceeds = false ∧
    (packed [⟨0xE1, 1, 1, 1⟩] 86 0).exceeds = false ∧ (packed [⟨0xE1, 1, 1, 1⟩] 86 1).count = 1 := by decide

theorem witness_ZeroBudgetDisablesTheLimiter : (packed [⟨0xFF, 255, 255, 255⟩] 0xFFFF 0).budget = 0#32 ∧
    (packed [⟨0xFF, 255, 255, 255⟩] 0 1).curPerCh = 0#16 := ⟨rfl, rfl⟩

/-- D-PL1: the bound met with equality; D-PL3. -/
theorem witness_LimitKeepsTheBudgetWithinRounding :
    let s := packed (List.replicate 3 ⟨0xFF, 255, 255, 255⟩) 20 90
    Memory.wf 0 s.wb = true ∧ s.budget.toNat ≠ 0 ∧ 255 * s.budget.toNat < s.estimate ∧
      2 * (limitBuffer s).estimate = 2 * (255 * s.budget.toNat) + 3 * (s.count * s.curPerCh.toNat) := by decide

/-- Two states that differ in a brightness byte only, over the budget (60 * 6 > 255 * 1) and not (40 * 6). -/
theorem witness_EstimateIgnoresBrightness :
    let s := packed [⟨0xE1, 1, 2, 3⟩] 60 1
    let t := packed [⟨0xFF, 1, 2, 3⟩] 60 1
    Memory.wf 0 s.wb = true ∧ Memory.wf 0 t.wb = true ∧ s.ledCount = t.ledCount ∧ s.curPerCh = t.curPerCh ∧
      s.budget = t.budget ∧ (s.record 0).brightness ≠ (t.record 0).brightness ∧
      (∀ i < s.count, (s.record i).b = (t.record i).b ∧ (s.record i).g = (t.record i).g ∧ (s.record i).r = (t.record i).r) ∧
      (limitBuffer s).limited = true ∧ (limitBuffer (packed [⟨0xE1, 1, 2, 3⟩] 40 1)).limited = false := by
  decide

theorem witness_FrameIsRenderThenLimit : white3.budget ≠ 0#32 ∧ { white3 with budget := 0 }.budget = 0#32 := by decide

theorem witness_WhiteFrameIsAllOnes :
    { white3 with budget := 0 }.budget = 0#32 ∧
      ∀ i < { white3 with budget := 0 }.count, { white3 with budget := 0 }.pixel i = ⟨255, 255, 255⟩ := by decide

theorem witness_RenderUndoesLimit : ∃ s t u v, exec .limit s = .next t ∧ exec .render t = .next u ∧
    exec .render s = .next v ∧ t.limited = true :=
  ⟨{ framed with curPerCh := 200 }, _, _, _, rfl, rfl, rfl, by decide⟩

theorem witness_FrameMakesTheBufferReady : white3.noError = true ∧ framed.noError = true := by decide

theorem witness_BufLenReadsTheSizeLaw : block.count ≤ 65535 ∧ largest.count ≤ 65535 ∧ largest.count = 65535 := by decide

/-- Above NMAX by one; the same N; a new N, and NMAX itself. -/
theorem witness_LedCountWriteClearsOnAChangeOnly :
    framed.cfg.nmax.val < (151#32).toNat ∧ ((1#32).toNat ≤ framed.cfg.nmax.val ∧ 1#32 = framed.ledCount) ∧
    ((0#32).toNat ≤ framed.cfg.nmax.val ∧ 0#32 ≠ framed.ledCount) ∧
    ((150#32).toNat ≤ framed.cfg.nmax.val ∧ 150#32 ≠ framed.ledCount) := by decide

theorem witness_CurPerChStoresItsLowHalf : (∃ t, exec .render white3 = .next t) ∧ Instr.render ≠ .limit ∧ Instr.render ≠ .frame :=
  ⟨⟨_, rfl⟩, by decide, by decide⟩

theorem witness_BudgetStoresAllBits : (0#32) = 0#32 ∧ framed.budget ≠ 0 := by decide

theorem witness_ArgRegistersAreTheHostsAlone :
    (∃ t, exec .frame white3 = .next t) ∧ Instr.frame ≠ .remap ∧ Instr.frame ≠ .encode ∧
    (∃ t, exec .remap (operands 0xFFFF 1 2) = .next t) ∧ remapOperand (operands 0xFFFF 1 2) = .ok 0xFFFF ∧
    encodeOperands (operands 0x1EE1 1 2) = .ok (0x1EE1, 1, 2) :=
  ⟨⟨_, rfl⟩, by decide, by decide, exec_next _ _, rfl, rfl⟩

/-- Every disjunct, and the two clauses of success: a reset, a REMAP, an ENCODE at the ends of their ranges, another event. -/
theorem witness_OnlyRemapAndEncodeWriteRes0 :
    (∃ t, step { operands 1 2 3 with pending := [.reset] } = .next t ∧ t.res0 ≠ (operands 1 2 3).res0) ∧
    (∃ t, step (facing (.write32 0x00#32 1#32) (operands 0xFFFF 0 0)) = .next t ∧ t.res0 = 0x1EE1) ∧
    (∃ t, step (facing (.write32 0x00#32 2#32) (operands 0x1EE1 0x1EE1 0x1EE1)) = .next t ∧ t.res0 = 0xFFFFFFFF) ∧
    ∃ t, step (facing (.write32 0x00#32 1#32) (operands 0x10000 0 0)) = .next t ∧ t.res0 = 0x55 :=
  ⟨⟨_, rfl, by decide⟩, ⟨_, rfl, by decide⟩, ⟨_, rfl, by decide⟩, ⟨_, rfl, by decide⟩⟩

/-- A write that leaves no error bit, one that leaves one (P6, line 8), and a step that clears a bit. -/
theorem witness_ErrorBitsAreStickyAndWriteOneToClear :
    noErrorBits (statusAfterWrite 7 0x306) = true ∧ noErrorBits (statusAfterWrite 1 0x203) = false ∧
    ∃ t, step (facing (.write32 0x04#32 1#32) { block with status := 0x203 }) = .next t ∧
      (0x203#32).getLsbD 0 = true ∧ t.status.getLsbD 0 = false :=
  ⟨by decide, by decide, _, rfl, by decide, by decide⟩

/-- A step that records an error, one whose error bit is already set, and one that records none. -/
theorem witness_AStepRecordsAtMostOneError :
    (∃ t, step (facing (.write32 0x00#32 6#32) block) = .next t ∧ t.status = 0x101) ∧
    (∃ t, step (facing (.write32 0x00#32 6#32) { block with status := 0x203 }) = .next t ∧ t.status = 0x103) ∧
    ∃ t, step (facing (.write32 0x04#32 7#32) { block with status := 0x306 }) = .next t ∧ t.status = 0 :=
  ⟨⟨_, rfl, by decide⟩, ⟨_, rfl, by decide⟩, ⟨_, rfl, by decide⟩⟩

/-- A reset, a change of N, and an event that does neither, each from a state with both flags set. -/
theorem witness_LimitedReportsTheLastLimit :
    framed.limited = true ∧ (∃ t, step { framed with pending := [.reset] } = .next t) ∧
    (∃ t, step (facing (.write32 0x08#32 2#32) framed) = .next t ∧ t.ledCount ≠ framed.ledCount) ∧
    ∃ t, step (facing (.write32 0x00#32 4#32) framed) = .next t ∧ t.ledCount = framed.ledCount ∧ t.limited = true :=
  ⟨by decide, ⟨_, rfl⟩, ⟨_, rfl, by decide⟩, ⟨_, rfl, by decide, by decide⟩⟩

/-- The memories' invariant of a rendered frame. -/
theorem framed_memoryInv : framed.MemoryInv where
  pix_wf := by decide
  wb_wf := by decide
  count_le := by decide
  pix_above i hi := by
    have hi : 1 ≤ i := hi
    have h : ¬ 0 = i := by omega
    show Memory.read Color.black [(0, _)] i = _
    rw [Memory.read, if_neg h]; rfl
  start_zero j hj := by interval_cases j <;> decide
  filler_zero j hj := by
    have hj : 8 ≤ j := hj
    show Memory.read 0 [(4, _), (5, _), (6, _), (7, _)] j = _
    rw [Memory.read, if_neg (by omega), Memory.read, if_neg (by omega), Memory.read, if_neg (by omega), Memory.read,
      if_neg (by omega)]; rfl

theorem framed_statusInv : framed.StatusInv where
  reserved k hk := by
    by_cases h : k < 32
    · have : ∀ k < 32, k = 3 ∨ k = 6 ∨ k = 7 ∨ 12 ≤ k → (0x30#32).getLsbD k = false := by decide
      exact this k h hk
    · exact BitVec.getLsbD_of_ge _ _ (by omega)
  cause_le := by decide
  cause_zero := by decide

theorem framed_frameInv : framed.FrameInv where
  invalid_zero h := absurd h (by decide)
  valid_brightness _ i hi := by
    have hi : i < 1 := hi
    have : i = 0 := by omega
    subst this; decide

theorem framed_inv : framed.Inv := ⟨framed_memoryInv, framed_statusInv, framed_frameInv⟩

/-- RENDER and FRAME; a reset, a change of N; an event that does none of these; and the invariant with FRAME_VALID cleared. -/
theorem witness_FrameValidReportsARenderedBuffer :
    (∃ t, step (facing (.write32 0x00#32 4#32) block) = .next t) ∧ (∃ t, step (facing (.write32 0x00#32 5#32) block) = .next t) ∧
    (∃ t, step { framed with pending := [.reset] } = .next t ∧ t.frameValid = false ∧ framed.frameValid = true) ∧
    (∃ t, step (facing (.write32 0x08#32 2#32) framed) = .next t ∧ t.ledCount ≠ framed.ledCount) ∧
    (∃ t, step (facing (.write32 0x00#32 3#32) framed) = .next t ∧ t.ledCount = framed.ledCount) ∧
    ∃ t, (facing (.write32 0x08#32 0#32) framed).Inv ∧ step (facing (.write32 0x08#32 0#32) framed) = .next t ∧
      t.frameValid = false :=
  ⟨⟨_, rfl⟩, ⟨_, rfl⟩, ⟨_, rfl, by decide, by decide⟩, ⟨_, rfl, by decide⟩, ⟨_, rfl, by decide⟩,
    ⟨_, ⟨⟨framed_memoryInv.1, framed_memoryInv.2, framed_memoryInv.3, framed_memoryInv.4, framed_memoryInv.5,
      framed_memoryInv.6⟩, ⟨framed_statusInv.1, framed_statusInv.2, framed_statusInv.3⟩,
      ⟨framed_frameInv.1, framed_frameInv.2⟩⟩, rfl, by decide⟩⟩

/-- The first and last address of each window, and the next one. -/
theorem witness_WindowsNeverOverlap : (65535 : Nat) ≤ 65535 ∧ regAt 0x24 = some .bufLen ∧ regAt 0x28 = none ∧
    pixelAt 65535 0x0004FFF8 = some 65534 ∧ pixelAt 65535 0x0004FFFC = none ∧ wireByteAt 65535 0x00141000 = some 266240 ∧
    wireByteAt 65535 0x00141001 = none ∧ wireWordAt 65535 0x00140FFC = some 266236 := by decide

/-- One of each kind: an 8-bit write, a reserved offset, a misaligned word, one byte past the buffer. -/
theorem witness_RefusedAccessesAreBusErrors :
    ¬ (Access.write8 0x08 1).Admitted 1 ∧ ¬ (Access.write32 0x20 5).Admitted 1 ∧
    ¬ (Access.read32 0x00000028).Admitted 1 ∧ ¬ (Access.read8 0x0010000A).Admitted 1 := by
  refine ⟨id, ?_, ?_, ?_⟩
  · rintro (⟨r, h1, h2, h⟩ | ⟨i, _, h⟩)
    · cases r <;> first | exact h1 rfl | exact h2 rfl | exact absurd h (by decide)
    · have h : 0x20 = 0x00010000 + 4 * i := h
      omega
  · rintro (⟨r, h⟩ | ⟨i, _, h⟩ | ⟨j, _, _, h⟩)
    · cases r <;> exact absurd h (by decide)
    · have h : 0x28 = 0x00010000 + 4 * i := h
      omega
    · have h : 0x28 = 0x00100000 + j := h
      omega
  · rintro ⟨j, hj, h⟩
    have hj : j < 10 := hj
    have h : 0x0010000A = 0x00100000 + j := h
    omega

theorem witness_ReservedOffsetsAreBusErrors :
    (0x28 ≤ (0x28#32).toNat ∧ (0x28#32).toNat ≤ 0xFFFF) ∧ 0x28 ≤ (0xFFFF#32).toNat ∧ (0xFFFF#32).toNat ≤ 0xFFFF := by decide

/-- A canonical pixel RAM, its first and last index, and refused addresses of the window at both ends. -/
theorem witness_PixelWindowReadsAndWritesPixels :
    Instr.limit ≠ .render ∧ Instr.limit ≠ .frame ∧ Memory.wf Color.black white3.pix = true ∧ white3.count ≤ 65535 ∧ 0 < white3.count ∧ 2 < white3.count ∧
    (0x00010000 ≤ (0x00010001#32).toNat ∧ ∀ i < white3.count, (0x00010001#32).toNat ≠ 0x00010000 + 4 * i) ∧
    ((0x000FFFFF#32).toNat < 0x00100000 ∧ ∀ i < white3.count, (0x000FFFFF#32).toNat ≠ 0x00010000 + 4 * i) := by decide

/-- N = 3, 18 bytes: the last byte, the last word (12) and the first refused one (16); the first address past the buffer. -/
theorem witness_WireWindowReadsTheBuffer :
    white3.count ≤ 65535 ∧ bufferLen white3.count = 18 ∧ 17 < bufferLen white3.count ∧
    (12 % 4 = 0 ∧ 12 + 3 < bufferLen white3.count) ∧ bufferLen white3.count ≤ 16 + 3 ∧
    0x00100000 ≤ (0x00100000#32).toNat ∧ 0x00100000 ≤ (0x00100012#32).toNat := by decide

theorem witness_AdmittedReadsHaveNoSideEffect :
    (Access.read8 0x00100009).Admitted framed.count ∧ (Access.read32 0x04).Admitted framed.count ∧
    (Access.read32 0x00010000).Admitted framed.count ∧ (Access.read32 0x00100004).Admitted framed.count ∧
    (∀ addr v, Access.read32 0x04 ≠ .write32 addr v) :=
  ⟨⟨9, by decide, by decide⟩, .inl ⟨.status, rfl⟩, .inr (.inl ⟨0, by decide, by decide⟩),
    .inr (.inr ⟨4, by decide, by decide, by decide⟩), fun _ _ => by simp⟩

theorem witness_StepKeepsTheMemoryInvariant : ∃ s t, s.MemoryInv ∧ step s = .next t ∧ t.wb ≠ s.wb :=
  ⟨facing (.write32 0x00#32 4#32) framed, _, ⟨framed_memoryInv.1, framed_memoryInv.2, framed_memoryInv.3,
    framed_memoryInv.4, framed_memoryInv.5, framed_memoryInv.6⟩, rfl, by decide⟩

theorem witness_StepKeepsTheStatusInvariant : ∃ s t, s.StatusInv ∧ step s = .next t ∧ t.status ≠ s.status :=
  ⟨facing (.write32 0x20#32 0#32) framed, _, ⟨framed_statusInv.1, framed_statusInv.2, framed_statusInv.3⟩, rfl, by decide⟩

theorem witness_StepKeepsTheFrameInvariant : ∃ s t, s.MemoryInv ∧ s.FrameInv ∧ step s = .next t ∧ t.wb ≠ s.wb :=
  ⟨facing (.write32 0x00#32 3#32) { framed with curPerCh := 200 }, _,
    ⟨framed_memoryInv.1, framed_memoryInv.2, framed_memoryInv.3, framed_memoryInv.4, framed_memoryInv.5, framed_memoryInv.6⟩,
    ⟨framed_frameInv.1, framed_frameInv.2⟩, rfl, by decide⟩

/-- A frame the host is reading, with everything R243 lets stand between its reads: a write of the same N, one above NMAX, an
illegal command, a REMAP. -/
def transmitting : State :=
  { framed with pending := [.access (.read8 0x00100009), .access (.write32 8 1), .access (.write32 8 151),
      .access (.write32 0 6), .access (.write32 0 1), .access (.read32 0x00100004)] }

/-- The hypothesis, and the premises of both read clauses at the last byte and the last word of the 10-byte buffer; a LIMIT and a
change of N are not quiet. -/
theorem witness_QuietTransmissionSeesOneFrame :
    transmissionQuiet transmitting.cfg.nmax.val transmitting.ledCount transmitting.pending = true ∧
    (∃ t rest, Sys2Proof.core.run 0 transmitting = .next t ∧ t.pending = .access (.read8 0x00100009) :: rest ∧
      9 < bufferLen transmitting.count ∧ (0x00100009#32).toNat = 0x00100000 + 9) ∧
    (∃ t, Sys2Proof.core.run 5 transmitting = .next t ∧ t.pending = [.access (.read32 0x00100004)] ∧
      transmitting.count ≤ 65535 ∧ 4 + 3 < bufferLen transmitting.count ∧ (0x00100004#32).toNat = 0x00100000 + 4) ∧
    transmissionQuiet 150 1 [.access (.write32 0 3)] = false ∧ transmissionQuiet 150 1 [.access (.write32 8 150)] = false :=
  ⟨by decide, ⟨_, _, rfl, rfl, by decide, by decide⟩, ⟨_, rfl, by decide, by decide, by decide, by decide⟩, by decide, by decide⟩

theorem witness_FrameIntervalHasNoEffect : ∃ t, step (facing (.write32 0x00#32 5#32) white3) = .next t ∧ t.frameValid = true :=
  ⟨_, rfl, by decide⟩

end Sys2Proof.Tests
end

/-! The registers of 10_state.md: what a write stores, what a read returns, and which commands read or write each of
them (R24 to R29). -/

namespace Sys2Proof.Machine

/-! ### Words -/

/-- OP of the six commands (30_encoding.md R91): the opcode map read backwards. -/
theorem decodeOp_eq_command {op : BitVec 4} {i : Instr} (h : decodeOp op = .command i) : op = opcode i := by
  revert op
  cases i <;> decide

/-- Only a command's own word decodes to it (R90 to R93). -/
theorem decode_eq_command {v : Word} {i : Instr} (h : decode v = .command i) : v = encode i := by
  unfold decode at h
  split_ifs at h with hr
  have hsplit : rsvField v ++ opField v = v :=
    (BitVec.extractLsb'_append_extractLsb'_eq_extractLsb' rfl).trans BitVec.extractLsb'_eq_self
  rw [← hsplit, hr, decodeOp_eq_command h, encode]

/-- The four bytes of an LED record as RES0 holds them: brightness on top, then B, G, R (R28). -/
theorem Record.word_bytes (x : Record) :
    x.word.extractLsb' 24 8 = x.brightness ∧ x.word.extractLsb' 16 8 = x.b ∧
      x.word.extractLsb' 8 8 = x.g ∧ x.word.extractLsb' 0 8 = x.r := by
  unfold Record.word
  refine ⟨?_, ?_, ?_, BitVec.extractLsb'_append_eq_right⟩
  · rw [BitVec.extractLsb'_append_eq_of_le (by decide), BitVec.extractLsb'_append_eq_of_le (by decide),
      BitVec.extractLsb'_append_eq_left]
  · rw [BitVec.extractLsb'_append_eq_of_le (by decide), BitVec.extractLsb'_append_eq_of_le (by decide),
      BitVec.extractLsb'_append_eq_right]
  · rw [BitVec.extractLsb'_append_eq_of_le (by decide), BitVec.extractLsb'_append_eq_right]

/-- The low half of a word, widened again, is the word with its upper half cleared (R25). -/
theorem lowHalf_setWidth (v : Word) : (v.extractLsb' 0 16).setWidth 32 = v &&& 0x0000FFFF#32 := by
  apply BitVec.eq_of_toNat_eq
  have hm : (0x0000FFFF#32).toNat = 2 ^ 16 - 1 := rfl
  rw [BitVec.toNat_and, hm, Nat.and_two_pow_sub_one_eq_mod, BitVec.toNat_setWidth, BitVec.extractLsb'_toNat,
    Nat.shiftRight_zero]
  exact Nat.mod_eq_of_lt (by omega)

/-! ### Register accesses -/

/-- A 32-bit read at a register's offset returns its value and changes nothing else (20_memory.md R62). -/
theorem readsAs_reg (r : Reg) (s : State) : (Access.read32 r.offset).ReadsAs s (.word (readReg r s)) :=
  perform_read32_reg r s

/-- A 32-bit write that ends in `raise` of a bus error meets the whole of R68. -/
theorem isBusError_of_write32 {addr v x : Word} {s : State}
    (h : perform (.write32 addr v) s = .next (raise (.busError x) s)) : (Access.write32 addr v).IsBusError s :=
  ⟨_, h, raise_recorded (.busError x) s, by rw [Access.refusedReply, List.append_nil]; rfl⟩

/-! ### A LED_COUNT write, case by case (R24) -/

theorem writeLedCount_of_gt {v : Word} {s : State} (h : s.cfg.nmax.val < v.toNat) :
    writeLedCount v s = raise (.rangeError .ledCount) s := if_pos h

theorem writeLedCount_of_eq {v : Word} {s : State} (hv : v.toNat ≤ s.cfg.nmax.val) (h : v = s.ledCount) :
    writeLedCount v s = s := (if_neg (Nat.not_lt.2 hv)).trans (if_pos h)

theorem writeLedCount_of_ne {v : Word} {s : State} (hv : v.toNat ≤ s.cfg.nmax.val) (h : v ≠ s.ledCount) :
    writeLedCount v s = { s with ledCount := v, pix := [], wb := []
                                 status := putBit limitedBit false (putBit frameValidBit false s.status) } :=
  (if_neg (Nat.not_lt.2 hv)).trans (if_neg h)

/-! ### Operands: when the range checks pass (40_remapper.md R112, 41_encoder.md R131) -/

theorem remapOperand_eq_ok {s : State} {l : Nat} :
    remapOperand s = .ok l ↔ s.arg0.toNat ≤ 0xFFFF ∧ l = s.arg0.toNat := by
  unfold remapOperand maxIn
  split_ifs with h
  · simp only [false_iff]; omega
  · rw [Except.ok.injEq]; omega

theorem encodeOperands_eq_ok {s : State} {r g b : Nat} :
    encodeOperands s = .ok (r, g, b) ↔
      (s.arg0.toNat ≤ 0x1EE1 ∧ s.arg1.toNat ≤ 0x1EE1 ∧ s.arg2.toNat ≤ 0x1EE1) ∧
        r = s.arg0.toNat ∧ g = s.arg1.toNat ∧ b = s.arg2.toNat := by
  unfold encodeOperands maxOut
  split_ifs with h0 h1 h2
  · simp only [false_iff]; omega
  · simp only [false_iff]; omega
  · simp only [false_iff]; omega
  · simp only [Except.ok.injEq, Prod.mk.injEq]; omega

/-! ### REMAP and ENCODE by the outcome of their checks -/

theorem exec_remap_of_error {s : State} {e : BlockError} (h : remapOperand s = .error e) :
    exec .remap s = .next (raise e s) := by
  show execRemap s = _
  rw [execRemap, h]

theorem exec_remap_of_ok {s : State} {l : Nat} (h : remapOperand s = .ok l) :
    exec .remap s = .next (s.setRes0 (BitVec.ofNat 32 (remap l))) := by
  show execRemap s = _
  rw [execRemap, h]

theorem exec_encode_of_error {s : State} {e : BlockError} (h : encodeOperands s = .error e) :
    exec .encode s = .next (raise e s) := by
  show execEncode s = _
  rw [execEncode, h]

theorem exec_encode_of_ok {s : State} {r g b : Nat} (h : encodeOperands s = .ok (r, g, b)) :
    exec .encode s = .next (s.setRes0 (encodeRecord r g b).word) := by
  show execEncode s = _
  rw [execEncode, h]

/-! ### What the commands read -/

/-- REMAP reads the operand that `remapOperand` checks and nothing else: a change `f` of the state that the check does
not see and that commutes with the two updates REMAP makes goes through REMAP. -/
theorem exec_remap_comm {s t : State} (f : State → State) (hf : remapOperand (f s) = remapOperand s)
    (hraise : ∀ e, raise e (f s) = f (raise e s)) (hres : ∀ w, (f s).setRes0 w = f (s.setRes0 w))
    (h : exec .remap s = .next t) : exec .remap (f s) = .next (f t) := by
  cases ho : remapOperand s with
  | error e =>
    rw [exec_remap_of_error ho] at h; cases h
    rw [exec_remap_of_error (hf.trans ho), hraise]
  | ok l =>
    rw [exec_remap_of_ok ho] at h; cases h
    rw [exec_remap_of_ok (hf.trans ho), hres]

/-- ENCODE likewise reads only what `encodeOperands` checks. -/
theorem exec_encode_comm {s t : State} (f : State → State) (hf : encodeOperands (f s) = encodeOperands s)
    (hraise : ∀ e, raise e (f s) = f (raise e s)) (hres : ∀ w, (f s).setRes0 w = f (s.setRes0 w))
    (h : exec .encode s = .next t) : exec .encode (f s) = .next (f t) := by
  cases ho : encodeOperands s with
  | error e =>
    rw [exec_encode_of_error ho] at h; cases h
    rw [exec_encode_of_error (hf.trans ho), hraise]
  | ok x =>
    rw [exec_encode_of_ok ho] at h; cases h
    rw [exec_encode_of_ok (hf.trans ho), hres]

/-- LIMIT does not read the ARG registers (R27). -/
theorem limitBuffer_args (s : State) (a b c : Word) :
    limitBuffer { s with arg0 := a, arg1 := b, arg2 := c } =
      { limitBuffer s with arg0 := a, arg1 := b, arg2 := c } := by
  have he : State.exceeds { s with arg0 := a, arg1 := b, arg2 := c } = s.exceeds := rfl
  unfold limitBuffer
  rw [he]
  split <;> rfl

/-- Only REMAP and ENCODE read the ARG registers (R27). -/
theorem exec_args {i : Instr} {s t : State} (a b c : Word) (hr : i ≠ .remap) (hn : i ≠ .encode)
    (h : exec i s = .next t) :
    exec i { s with arg0 := a, arg1 := b, arg2 := c } = .next { t with arg0 := a, arg1 := b, arg2 := c } := by
  cases i with
  | nop => cases h; rfl
  | remap => exact absurd rfl hr
  | encode => exact absurd rfl hn
  | limit => cases h; exact congrArg Host.Outcome.next (limitBuffer_args s a b c)
  | render => cases h; rfl
  | frame =>
    have hs : execFrame s = .next t := h
    rw [execFrame_eq] at hs; cases hs
    exact (execFrame_eq _).trans (congrArg Host.Outcome.next (limitBuffer_args (renderBuffer s) a b c))

/-- Only LIMIT and FRAME read K (R25). -/
theorem exec_curPerCh {i : Instr} {s t : State} (k : Half) (hl : i ≠ .limit) (hf : i ≠ .frame)
    (h : exec i s = .next t) : exec i { s with curPerCh := k } = .next { t with curPerCh := k } := by
  cases i with
  | nop => cases h; rfl
  | remap => exact exec_remap_comm (fun s => { s with curPerCh := k }) rfl (fun _ => rfl) (fun _ => rfl) h
  | encode => exact exec_encode_comm (fun s => { s with curPerCh := k }) rfl (fun _ => rfl) (fun _ => rfl) h
  | limit => exact absurd rfl hl
  | render => cases h; rfl
  | frame => exact absurd rfl hf

/-- With BUDGET 0 LIMIT leaves the wire buffer (42_power_limiter.md R151, R152). -/
theorem limitBuffer_wb_of_budget_zero {s : State} (h : s.budget = 0) : (limitBuffer s).wb = s.wb := by
  have he : ¬ s.exceeds = true := fun hx => ((exceeds_iff s).1 hx).1 (by rw [h]; rfl)
  rw [limitBuffer, if_neg he]; rfl

/-! ### What the commands write -/

/-- No command writes an ARG register (R27). -/
theorem exec_keeps_args {i : Instr} {s t : State} (h : exec i s = .next t) :
    t.arg0 = s.arg0 ∧ t.arg1 = s.arg1 ∧ t.arg2 = s.arg2 := by
  have hlimit (u : State) : (limitBuffer u).arg0 = u.arg0 ∧ (limitBuffer u).arg1 = u.arg1 ∧
      (limitBuffer u).arg2 = u.arg2 := by rw [limitBuffer_frame]; exact ⟨rfl, rfl, rfl⟩
  rcases exec_cases i s with ⟨_, h1⟩ | ⟨_, h1, _⟩ | ⟨_, _, h1⟩ | ⟨_, _, _, _, h1⟩ | ⟨_, h1⟩ | ⟨_, h1⟩ | ⟨_, h1⟩ <;>
    rw [h1] at h <;> cases h
  · exact ⟨rfl, rfl, rfl⟩
  · exact ⟨rfl, rfl, rfl⟩
  · exact ⟨rfl, rfl, rfl⟩
  · exact ⟨rfl, rfl, rfl⟩
  · exact hlimit s
  · exact ⟨rfl, rfl, rfl⟩
  · exact hlimit (renderBuffer s)

/-- What one event leaves in RES0 (R28): a reset 0, a successful REMAP the curve's value, a successful ENCODE the record,
and every other event what was there. -/
theorem EventCases.res0_cases {e : PortEvent} {s t : State} (h : EventCases e s t) :
    (e = .reset ∧ t.res0 = 0) ∨
    (e = .access (.write32 0x00#32 (encode .remap)) ∧ s.arg0.toNat ≤ 0xFFFF ∧
      t.res0 = BitVec.ofNat 32 (remap s.arg0.toNat)) ∨
    (e = .access (.write32 0x00#32 (encode .encode)) ∧
      (s.arg0.toNat ≤ 0x1EE1 ∧ s.arg1.toNat ≤ 0x1EE1 ∧ s.arg2.toNat ≤ 0x1EE1) ∧
      t.res0 = (encodeRecord s.arg0.toNat s.arg1.toNat s.arg2.toNat).word) ∨
    t.res0 = s.res0 := by
  cases h with
  | reset he ht => exact .inl ⟨he, by rw [ht]; rfl⟩
  | busR a he addr ht => rcases ht with ⟨rfl, _⟩ | ⟨rfl, _⟩ <;> exact .inr (.inr (.inr rfl))
  | led v he ht =>
    obtain ⟨_, _, _, hres⟩ := writeLedCount_frame v s
    exact .inr (.inr (.inr (by rw [ht, hres])))
  | cmd v i he hd ht =>
    obtain rfl := decode_eq_command hd
    rcases exec_cases i s with ⟨_, h1⟩ | ⟨_, h1, _⟩ | ⟨rfl, h0, h1⟩ | ⟨rfl, h0, h2, h3, h1⟩ | ⟨_, h1⟩ | ⟨_, h1⟩
        | ⟨_, h1⟩ <;> rw [h1] at ht <;> cases ht
    · exact .inr (.inr (.inr rfl))
    · exact .inr (.inr (.inr rfl))
    · exact .inr (.inl ⟨he, h0, rfl⟩)
    · exact .inr (.inr (.inl ⟨he, ⟨h0, h2, h3⟩, rfl⟩))
    · exact .inr (.inr (.inr (by rw [limitBuffer_frame])))
    · exact .inr (.inr (.inr rfl))
    · exact .inr (.inr (.inr (by rw [limitBuffer_frame]; rfl)))
  | _ => subst t; exact .inr (.inr (.inr rfl))

/-! ### The obligations of 10_state.md -/

/-- Settles O30, by the three cases of a LED_COUNT write. -/
theorem ledCountWriteClearsOnAChangeOnly : Obligations.LedCountWriteClearsOnAChangeOnly := by
  unfold Obligations.LedCountWriteClearsOnAChangeOnly
  refine ⟨rfl, fun s v => ?_⟩
  have hw : perform (.write32 0x08#32 v) s = .next (writeLedCount v s) := perform_write32_reg .ledCount v s
  rw [hw]
  refine ⟨fun hgt => ?_, fun hle heq => ?_, fun hle hne => ?_, readsAs_reg .ledCount s⟩
  · rw [writeLedCount_of_gt hgt]
    exact ⟨_, rfl, raise_recorded (.rangeError .ledCount) s, rfl⟩
  · rw [writeLedCount_of_eq hle heq]
  · rw [writeLedCount_of_ne hle hne]
    refine ⟨_, rfl, rfl, fun _ => rfl, fun _ => rfl, rfl, fun k _ => ?_⟩
    rw [putBit_getLsbD _ _ _ (by decide), putBit_getLsbD _ _ _ (by decide), ite_or]

/-- Settles O33, by what each command reads and writes. -/
theorem argRegistersAreTheHostsAlone : Obligations.ArgRegistersAreTheHostsAlone := by
  unfold Obligations.ArgRegistersAreTheHostsAlone
  refine ⟨rfl, rfl, rfl, fun s v => ⟨?_, ?_, ?_⟩, fun _ _ _ => exec_keeps_args,
    fun _ _ _ a b c => exec_args a b c, fun _ _ b c => ?_, fun _ _ h => (remapOperand_eq_ok.1 h).2,
    fun _ _ _ _ h => (encodeOperands_eq_ok.1 h).2⟩
  · exact perform_write32_reg .arg0 v s
  · exact perform_write32_reg .arg1 v s
  · exact perform_write32_reg .arg2 v s
  · exact exec_remap_comm (fun s => { s with arg1 := b, arg2 := c }) rfl (fun _ => rfl) fun _ => rfl

/-- Settles O34, by inversion of the step (`EventCases.res0_cases`). -/
theorem onlyRemapAndEncodeWriteRes0 : Obligations.OnlyRemapAndEncodeWriteRes0 := by
  unfold Obligations.OnlyRemapAndEncodeWriteRes0
  refine ⟨rfl, fun s h => ?_, fun s h0 h1 h2 => ?_, fun s t e rest hp hs => ?_, fun s v => ⟨?_, ?_⟩⟩
  · exact ⟨_, exec_remap_of_ok (remapOperand_eq_ok.2 ⟨h, rfl⟩), rfl⟩
  · exact ⟨_, exec_encode_of_ok (encodeOperands_eq_ok.2 ⟨⟨h0, h1, h2⟩, rfl, rfl, rfl⟩), Record.word_bytes _⟩
  · rcases (step_cases hp hs).res0_cases with h | h | ⟨he, ⟨h0, h1, h2⟩, ht⟩ | h
    · exact .inl h
    · exact .inr (.inl h)
    · exact .inr (.inr (.inl ⟨he, h0, h1, h2, ht⟩))
    · exact .inr (.inr (.inr h))
  · exact isBusError_of_write32 (perform_write32_reg .res0 v s)
  · exact readsAs_reg .res0 s

/-- Settles O29, by the size law and the register rules. -/
theorem bufLenReadsTheSizeLaw : Obligations.BufLenReadsTheSizeLaw := by
  unfold Obligations.BufLenReadsTheSizeLaw
  exact ⟨fun s hs => ⟨readsAs_reg .bufLen s, by omega⟩, fun n => ⟨rfl, fillerLen_eq n, bufferLen_eq n⟩,
    fun s v => isBusError_of_write32 (perform_write32_reg .bufLen v s), rfl⟩

/-- Settles O31, by the register rules and what the commands read. -/
theorem curPerChStoresItsLowHalf : Obligations.CurPerChStoresItsLowHalf := by
  unfold Obligations.CurPerChStoresItsLowHalf
  refine ⟨rfl, fun s v => ⟨_, perform_write32_reg .curPerCh v s, rfl, ?_⟩, fun _ _ _ k => exec_curPerCh k⟩
  rw [← lowHalf_setWidth]
  exact readsAs_reg .curPerCh (writeCurPerCh v s)

/-- Settles O32, by the register rules and LIMIT with BUDGET 0. -/
theorem budgetStoresAllBits : Obligations.BudgetStoresAllBits := by
  unfold Obligations.BudgetStoresAllBits
  exact ⟨rfl, fun s v => ⟨_, perform_write32_reg .budget v s, rfl, readsAs_reg .budget (writeBudget v s),
    fun hv => ⟨_, rfl, limitBuffer_wb_of_budget_zero hv⟩⟩⟩

end Sys2Proof.Machine

/-! The windows of 20_memory.md: which accesses are BusErrors, what the admitted accesses of the pixel window and of the
wire-buffer window do, and which commands read the pixel RAM (R63 to R68). -/

namespace Sys2Proof.Machine

/-! ### Addresses and words -/

/-- For N up to 65535 the buffer fits its window, 0x00100000 to 0x00141000 (R66). -/
theorem bufferLen_le {n : Nat} (h : n ≤ 65535) : bufferLen n ≤ 266241 := by
  rw [bufferLen_eq, fillerLen_eq]
  omega

/-- No register lies above offset 0x24 (R62, R63). -/
theorem ne_offset_of_above {addr : Word} (h : 0x24 < addr.toNat) (r : Reg) : addr ≠ r.offset :=
  regAt_eq_none.1 (regAt_above h) r

/-- The mask of a pixel word keeps exactly the bits below 24. -/
theorem pixelMask_getLsbD : ∀ k < 32, (0x00FFFFFF#32 : Word).getLsbD k = decide (k < 24) := by
  decide

/-- A pixel word written and read again is that word with [31:24] cleared (R64, R65). -/
theorem colorOfWord_word (w : Word) : (colorOfWord w).word = w &&& 0x00FFFFFF#32 := by
  apply BitVec.eq_of_getLsbD_eq
  intro k hk
  rw [BitVec.getLsbD_and, pixelMask_getLsbD k hk]
  simp only [Color.word, colorOfWord, BitVec.getLsbD_append, BitVec.getLsbD_extractLsb']
  by_cases h0 : k < 8
  · simp [h0, show k < 24 by omega]
  by_cases h1 : k < 16
  · simp [h0, show k - 8 < 8 by omega, show 8 + (k - 8) = k by omega, show k < 24 by omega]
  by_cases h2 : k < 24
  · simp [h0, h2, show ¬ k - 8 < 8 by omega, show k - 8 - 8 < 8 by omega, show 16 + (k - 8 - 8) = k by omega]
  · simp [h0, h2, show ¬ k - 8 < 8 by omega, show ¬ k - 8 - 8 < 8 by omega]

/-! ### Refused accesses (R68) -/

/-- An access that ends in `raise` of a bus error and its refused reply meets the whole of R68. -/
theorem isBusError_of_raise {a : Access} {x : Word} {s : State}
    (h : perform a s = .next { raise (.busError x) s with replies := s.replies ++ a.refusedReply }) : a.IsBusError s :=
  ⟨_, h, raise_recorded (.busError x) s, rfl⟩

/-- No 8-bit write is admitted anywhere (R61, R68). -/
theorem isBusError_write8 (addr : Word) (v : Byte) (s : State) : (Access.write8 addr v).IsBusError s :=
  ⟨_, rfl, raise_recorded (.busError addr) s, by rw [Access.refusedReply, List.append_nil]; rfl⟩

/-- An access that is not admitted (R62, R65, R66) is a BusError. -/
theorem isBusError_of_not_admitted {a : Access} {s : State} (h : ¬ a.Admitted s.count) : a.IsBusError s := by
  cases a with
  | read8 addr =>
    rcases perform_read8 addr s with ⟨j, hj, ha, _⟩ | ⟨_, hp⟩
    · exact absurd ⟨j, hj, ha⟩ h
    · exact isBusError_of_raise hp
  | read32 addr =>
    rcases perform_read32 addr s with ⟨r, ha, _⟩ | ⟨i, hi, ha, _⟩ | ⟨j, h4, hj, ha, _⟩ | ⟨_, _, _, hp⟩
    · exact absurd (.inl ⟨r, ha⟩) h
    · exact absurd (.inr (.inl ⟨i, hi, ha⟩)) h
    · exact absurd (.inr (.inr ⟨j, h4, hj, ha⟩)) h
    · exact isBusError_of_raise hp
  | write8 addr v => exact isBusError_write8 addr v s
  | write32 addr v =>
    rcases perform_write32 addr v s with ⟨r, rfl, hp⟩ | ⟨i, hi, ha, _⟩ | ⟨_, _, hp⟩
    · by_cases hr : r = .res0 ∨ r = .bufLen
      · rcases hr with rfl | rfl <;> exact isBusError_of_write32 hp
      · exact absurd (.inl ⟨r, fun e => hr (.inl e), fun e => hr (.inr e), rfl⟩) h
    · exact absurd (.inr ⟨i, hi, ha⟩) h
    · exact isBusError_of_write32 hp

/-- An 8-bit read outside the wire buffer is refused. -/
theorem isBusError_read8 {addr : Word} {s : State} (hwire : ∀ j < bufferLen s.count, addr.toNat ≠ 0x00100000 + j) :
    (Access.read8 addr).IsBusError s :=
  isBusError_of_not_admitted fun ⟨j, hj, ha⟩ => hwire j hj ha

/-- Above the registers, a 32-bit read that hits no pixel and no aligned word of the wire buffer is refused. -/
theorem isBusError_read32 {addr : Word} {s : State} (hreg : 0x24 < addr.toNat)
    (hpix : ∀ i < s.count, addr.toNat ≠ 0x00010000 + 4 * i)
    (hwire : ∀ j, j % 4 = 0 → j + 3 < bufferLen s.count → addr.toNat ≠ 0x00100000 + j) :
    (Access.read32 addr).IsBusError s := by
  refine isBusError_of_not_admitted ?_
  rintro (⟨r, ha⟩ | ⟨i, hi, ha⟩ | ⟨j, h4, hj, ha⟩)
  · exact ne_offset_of_above hreg r ha
  · exact hpix i hi ha
  · exact hwire j h4 hj ha

/-- Above the registers, a 32-bit write that hits no pixel is refused. -/
theorem isBusError_write32 {addr v : Word} {s : State} (hreg : 0x24 < addr.toNat)
    (hpix : ∀ i < s.count, addr.toNat ≠ 0x00010000 + 4 * i) : (Access.write32 addr v).IsBusError s := by
  refine isBusError_of_not_admitted ?_
  rintro (⟨r, _, _, ha⟩ | ⟨i, hi, ha⟩)
  · exact ne_offset_of_above hreg r ha
  · exact hpix i hi ha

/-! ### Admitted accesses of the two windows (R65, R66) -/

/-- A 32-bit read of pixel `i` returns its pixel word and changes nothing else. -/
theorem readsAs_pixel {addr : Word} {s : State} {i : Nat} (hi : i < s.count) (ha : addr.toNat = 0x00010000 + 4 * i) :
    (Access.read32 addr).ReadsAs s (.word (s.pixel i).word) := by
  unfold Access.ReadsAs
  simp only [perform, read32Value, regAt_above (show 0x24 < addr.toNat by omega), pixelAt_eq_some.2 ⟨hi, ha⟩]
  rfl

/-- A 32-bit write to pixel `i` is `writePixel`. -/
theorem perform_write32_pixel {addr : Word} {s : State} {i : Nat} (v : Word) (hi : i < s.count)
    (ha : addr.toNat = 0x00010000 + 4 * i) : perform (.write32 addr v) s = .next (writePixel i v s) := by
  simp only [perform, write32, regAt_above (show 0x24 < addr.toNat by omega), pixelAt_eq_some.2 ⟨hi, ha⟩]

/-- A pixel after a pixel write: the word's color at the index written, and the old color everywhere else. -/
theorem writePixel_pixel {s : State} (hs : Memory.wf Color.black s.pix = true) (i : Nat) (w : Word) (k : Nat) :
    (writePixel i w s).pixel k = if k = i then colorOfWord w else s.pixel k :=
  Memory.read_write i (colorOfWord w) k hs

/-- An 8-bit read of byte `j` of the wire buffer returns it and changes nothing else. -/
theorem readsAs_wireByte {addr : Word} {s : State} {j : Nat} (hj : j < bufferLen s.count)
    (ha : addr.toNat = 0x00100000 + j) : (Access.read8 addr).ReadsAs s (.byte (s.wireByte j)) := by
  unfold Access.ReadsAs
  simp only [perform, read8Value, wireByteAt_eq_some.2 ⟨hj, ha⟩]
  rfl

/-- A 32-bit read at the aligned index `j` returns the four bytes from `j` on, and changes nothing else. N up to 65535
keeps the pixel window below the wire buffer (R60). -/
theorem readsAs_wireWord {addr : Word} {s : State} {j : Nat} (hs : s.count ≤ 65535) (h4 : j % 4 = 0)
    (hj : j + 3 < bufferLen s.count) (ha : addr.toNat = 0x00100000 + j) :
    (Access.read32 addr).ReadsAs s (.word (s.wireWord j)) := by
  have hpix : pixelAt s.count addr = none := pixelAt_eq_none.2 fun i _ => by omega
  unfold Access.ReadsAs
  simp only [perform, read32Value, regAt_above (show 0x24 < addr.toNat by omega), hpix,
    wireWordAt_eq_some.2 ⟨h4, hj, ha⟩]
  rfl

/-! ### What the commands read -/

/-- LIMIT does not read the pixel RAM (R64). -/
theorem limitBuffer_pix (s : State) (p : Memory Color) :
    limitBuffer { s with pix := p } = { limitBuffer s with pix := p } := by
  have he : State.exceeds { s with pix := p } = s.exceeds := rfl
  unfold limitBuffer
  rw [he]
  split <;> rfl

/-- Only RENDER and FRAME read the pixel RAM (R64). -/
theorem exec_pix {i : Instr} {s t : State} (p : Memory Color) (hr : i ≠ .render) (hf : i ≠ .frame)
    (h : exec i s = .next t) : exec i { s with pix := p } = .next { t with pix := p } := by
  cases i with
  | nop => cases h; rfl
  | remap => exact exec_remap_comm (fun s => { s with pix := p }) rfl (fun _ => rfl) (fun _ => rfl) h
  | encode => exact exec_encode_comm (fun s => { s with pix := p }) rfl (fun _ => rfl) (fun _ => rfl) h
  | limit => cases h; exact congrArg Host.Outcome.next (limitBuffer_pix s p)
  | render => exact absurd rfl hr
  | frame => exact absurd rfl hf

/-! ### The obligations of 20_memory.md -/

/-- Settles O40, by inversion of each kind of access. -/
theorem refusedAccessesAreBusErrors : Obligations.RefusedAccessesAreBusErrors := by
  unfold Obligations.RefusedAccessesAreBusErrors
  exact fun _ _ => isBusError_of_not_admitted

/-- Settles O42, by the rules of the pixel window; every other access from 0x10000 to 0xFFFFF is refused, because the
registers end below it and the wire buffer begins above it. -/
theorem pixelWindowReadsAndWritesPixels : Obligations.PixelWindowReadsAndWritesPixels := by
  unfold Obligations.PixelWindowReadsAndWritesPixels
  refine ⟨fun _ _ _ p hr hf => exec_pix p hr hf, fun s hs hn => ⟨fun i hi => ?_, fun addr hlo hhi => ?_⟩⟩
  · have ha : (BitVec.ofNat 32 (0x00010000 + 4 * i)).toNat = 0x00010000 + 4 * i :=
      (BitVec.toNat_ofNat _ _).trans (Nat.mod_eq_of_lt (by omega))
    refine ⟨readsAs_pixel hi ha, fun w => ?_⟩
    have hwritten : (writePixel i w s).pixel i = colorOfWord w := (writePixel_pixel hs i w i).trans (if_pos rfl)
    refine ⟨writePixel i w s, perform_write32_pixel w hi ha, rfl, hwritten,
      fun k hk => (writePixel_pixel hs i w k).trans (if_neg hk), ?_⟩
    rw [← colorOfWord_word, ← hwritten]
    exact readsAs_pixel (s := writePixel i w s) hi ha
  · have hreg : 0x24 < addr.toNat := by omega
    exact ⟨isBusError_read8 fun j _ => by omega, fun v => isBusError_write8 addr v s, fun hpix =>
      ⟨isBusError_read32 hreg hpix fun j _ _ => by omega, fun w => isBusError_write32 hreg hpix⟩⟩

/-- Settles O43, by the rules of the wire-buffer window; no register and, for N up to 65535, no pixel reaches
into it. -/
theorem wireWindowReadsTheBuffer : Obligations.WireWindowReadsTheBuffer := by
  unfold Obligations.WireWindowReadsTheBuffer
  intro s hs
  have hlen := bufferLen_le hs
  have ha {j : Nat} (hj : j < bufferLen s.count) : (BitVec.ofNat 32 (0x00100000 + j)).toNat = 0x00100000 + j :=
    (BitVec.toNat_ofNat _ _).trans (Nat.mod_eq_of_lt (by omega))
  refine ⟨fun j hj => readsAs_wireByte hj (ha hj), fun j h4 hj => readsAs_wireWord hs h4 hj (ha (by omega)),
    fun addr hlo => ?_⟩
  have hreg : 0x24 < addr.toNat := by omega
  have hpix : ∀ i < s.count, addr.toNat ≠ 0x00010000 + 4 * i := fun i _ => by omega
  exact ⟨fun v => isBusError_write8 addr v s, fun v => isBusError_write32 hreg hpix,
    fun _ => isBusError_read8 fun j _ => by omega, fun _ => isBusError_read32 hreg hpix fun j _ _ => by omega⟩

/-- Settles O41: from 0x28 to 0xFFFF there is no register, no pixel and no byte of the wire buffer. -/
theorem reservedOffsetsAreBusErrors : Obligations.ReservedOffsetsAreBusErrors := by
  unfold Obligations.ReservedOffsetsAreBusErrors
  intro s addr hlo hhi
  have hreg : 0x24 < addr.toNat := by omega
  have hpix : ∀ i < s.count, addr.toNat ≠ 0x00010000 + 4 * i := fun i _ => by omega
  exact ⟨isBusError_read8 fun j _ => by omega, isBusError_read32 hreg hpix fun j _ _ => by omega,
    fun v => isBusError_write8 addr v s, fun v => isBusError_write32 hreg hpix⟩

end Sys2Proof.Machine

/-! The command words of 30_encoding.md: which words decode refuses, and what a write to CMD does with each word
(R90 to R93). -/

namespace Sys2Proof.Machine

/-! ### Decoding (R90 to R93) -/

/-- Every command's word decodes to it (R91). -/
theorem decode_encode (i : Instr) : decode (encode i) = .command i := by
  cases i <;> decide

/-- A command's word has RSV = 0 and OP at most 5 (R90, R91). -/
theorem encode_fields (i : Instr) : rsvField (encode i) = 0#28 ∧ (opField (encode i)).toNat ≤ 5 := by
  cases i <;> decide

/-- A word with a reserved bit set or an opcode above 5 is refused (R93): it is no command's word. -/
theorem decode_reject_of_illegal {v : Word} (h : rsvField v ≠ 0#28 ∨ 6 ≤ (opField v).toNat) :
    ∃ r, decode v = .reject r := by
  cases hd : decode v with
  | reject r => exact ⟨r, rfl⟩
  | command i =>
    obtain rfl := decode_eq_command hd
    obtain ⟨hrsv, hop⟩ := encode_fields i
    rcases h with h | h
    · exact absurd hrsv h
    · omega

/-! ### A write to CMD (10_state.md R22, R92) -/

theorem performCommand_of_command {v : Word} {i : Instr} (h : decode v = .command i) (s : State) :
    performCommand v s = exec i s := by
  rw [performCommand, h]

theorem performCommand_of_reject {v : Word} {r : Reject} (h : decode v = .reject r) (s : State) :
    performCommand v s = .next (raise (.illegalCommand v) s) := by
  rw [performCommand, h]

/-- A step whose oldest event is a write of `v` to CMD performs `v` as a command. -/
theorem step_cmdWrite {s : State} {v : Word} {rest : List PortEvent}
    (h : s.pending = .access (.write32 Reg.cmd.offset v) :: rest) :
    step s = performCommand v (s.setPending rest) := by
  rw [step, h]
  exact perform_write32_reg .cmd v (s.setPending rest)

/-- A step that writes the word of `i` to CMD is `exec i`. -/
theorem step_cmdWrite_encode {s : State} {i : Instr} {rest : List PortEvent}
    (h : s.pending = .access (.write32 Reg.cmd.offset (encode i)) :: rest) :
    step s = exec i (s.setPending rest) :=
  (step_cmdWrite h).trans (performCommand_of_command (decode_encode i) _)

/-- A step that writes a refused word to CMD is an IllegalCommand (R93). -/
theorem step_cmdWrite_reject {s : State} {v : Word} {r : Reject} {rest : List PortEvent}
    (h : s.pending = .access (.write32 Reg.cmd.offset v) :: rest) (hr : decode v = .reject r) :
    step s = .next (raise (.illegalCommand v) (s.setPending rest)) :=
  (step_cmdWrite h).trans (performCommand_of_reject hr _)

/-! ### The obligation of 30_encoding.md -/

/-- Settles O5: the six words are those of the commands, and a word with a reserved bit or an opcode above 5 is none of
them. -/
theorem commandWriteFollowsTheOpcodeMap : Obligations.CommandWriteFollowsTheOpcodeMap := by
  unfold Obligations.CommandWriteFollowsTheOpcodeMap
  intro s v rest hp
  have hexec (i : Instr) (hv : v = encode i) : step s = exec i (s.setPending rest) :=
    step_cmdWrite_encode (hv ▸ hp)
  refine ⟨hexec .nop, hexec .remap, hexec .encode, hexec .limit, hexec .render, hexec .frame, fun hbad => ?_⟩
  obtain ⟨r, hr⟩ := decode_reject_of_illegal hbad
  exact ⟨_, step_cmdWrite_reject hp hr, raise_recorded (.illegalCommand v) (s.setPending rest), rfl⟩

end Sys2Proof.Machine

/-! The intensity remapper of 40_remapper.md: channel expansion, the two segments of the curve as integers and as
rationals, how the curve rises, and the REMAP command (R110 to R116). -/

namespace Sys2Proof.Machine

/-! ### Channel expansion (R110) -/

/-- Expansion repeats the channel byte: `257 * c` is `256 * c + c`. -/
theorem expand_eq_append (c : Byte) : BitVec.ofNat 16 (expand c) = c ++ c := by
  apply BitVec.eq_of_toNat_eq
  have hc := c.isLt
  rw [BitVec.toNat_append, ← Nat.shiftLeft_add_eq_or_of_lt hc, Nat.shiftLeft_eq, BitVec.toNat_ofNat, expand]
  omega

/-! ### The two segments of the curve (R111, R114, R115) -/

theorem remap_of_lt {l : Nat} (h : l < 7650) : remap l = (l + 102) / 255 := if_pos h

theorem remap_of_ge {l : Nat} (h : 7650 ≤ l) : remap l = remapCubic l := if_neg (Nat.not_lt.2 h)

theorem outLow_eq : outLow = 30 := rfl

/-- The cubic segment with the constants of R7 and R115 as numbers. -/
theorem remapCubic_eq (l : Nat) :
    remapCubic l = 30 + (78750 * (l ^ 3 - 7650 ^ 3) + 4 * 281014394880375) / (10 * 281014394880375) := by
  rw [remapCubic, outLow_eq, cubicDen_eq, lowCut_eq]

/-- The linear segment as R114 states it over the real numbers; 102 is `0.4 * 255`. -/
theorem floor_linear (l : Nat) : ⌊(l : ℚ) / 255 + 4 / 10⌋ = (((l + 102) / 255 : ℕ) : ℤ) := by
  have hq : (l : ℚ) / 255 + 4 / 10 = ((l + 102 : ℕ) : ℚ) / ((255 : ℕ) : ℚ) := by push_cast; ring
  rw [hq, Rat.floor_natCast_div_natCast, Int.natCast_div]

/-- The cubic segment as R115 states it over the real numbers: multiply out `65535^3`, and 10 for the 0.4. -/
theorem floor_cubic {l : Nat} (h : 7650 ≤ l) :
    ⌊(30 : ℚ) + 7875 * (((l : ℚ) / 65535) ^ 3 - (7650 / 65535) ^ 3) / (1 - (7650 / 65535) ^ 3) + 4 / 10⌋ =
      (remapCubic l : ℤ) := by
  have hcube : 7650 ^ 3 ≤ l ^ 3 := Nat.pow_le_pow_left h 3
  have hq : (30 : ℚ) + 7875 * (((l : ℚ) / 65535) ^ 3 - (7650 / 65535) ^ 3) / (1 - (7650 / 65535) ^ 3) + 4 / 10 =
      ((30 : ℕ) : ℚ) + ((78750 * (l ^ 3 - 7650 ^ 3) + 4 * 281014394880375 : ℕ) : ℚ) /
        ((10 * 281014394880375 : ℕ) : ℚ) := by
    rw [Nat.cast_add, Nat.cast_mul, Nat.cast_sub hcube]; push_cast; ring
  rw [hq, Int.floor_natCast_add, Rat.floor_natCast_div_natCast, remapCubic_eq, ← Int.natCast_div, ← Int.natCast_add]

theorem remap_le_thirty {l : Nat} (h : l < 7650) : remap l ≤ 30 := by
  rw [remap_of_lt h]; omega

theorem thirty_le_remap {l : Nat} (h : 7650 ≤ l) : 30 ≤ remap l := by
  rw [remap_of_ge h, remapCubic_eq]; omega

/-! ### How the curve rises (R116) -/

theorem remapCubic_mono : Monotone remapCubic := by
  intro a b hab
  have hcube : a ^ 3 ≤ b ^ 3 := Nat.pow_le_pow_left hab 3
  rw [remapCubic_eq, remapCubic_eq]
  omega

/-- Each segment is monotone, and 30 separates the two. -/
theorem remap_mono : Monotone remap := by
  intro a b hab
  rcases Nat.lt_or_ge b 7650 with hb | hb
  · rw [remap_of_lt hb, remap_of_lt (hab.trans_lt hb)]; omega
  rcases Nat.lt_or_ge a 7650 with ha | ha
  · exact (remap_le_thirty ha).trans (thirty_le_remap hb)
  · rw [remap_of_ge ha, remap_of_ge hb]; exact remapCubic_mono hab

/-- Up to 65535 the cube grows by at most `3 * 65535^2` per input, too little for the cubic segment to rise by 2. -/
theorem remapCubic_succ_le {l : Nat} (h : l ≤ 65534) : remapCubic (l + 1) ≤ remapCubic l + 1 := by
  have hsquare : l ^ 2 ≤ 65534 ^ 2 := Nat.pow_le_pow_left h 2
  have hcube : (l + 1) ^ 3 = l ^ 3 + 3 * l ^ 2 + 3 * l + 1 := by ring
  rw [remapCubic_eq, remapCubic_eq, hcube]
  omega

/-- Adjacent inputs of the domain differ by at most 1, across the cut too. -/
theorem remap_succ_le {l : Nat} (h : l ≤ 65534) : remap (l + 1) ≤ remap l + 1 := by
  rcases Nat.lt_trichotomy (l + 1) 7650 with hl | hl | hl
  · rw [remap_of_lt hl, remap_of_lt (Nat.lt_of_succ_lt hl)]; omega
  · obtain rfl : l = 7649 := by omega
    decide
  · rw [remap_of_ge hl.le, remap_of_ge (Nat.le_of_lt_succ hl)]
    exact remapCubic_succ_le h

/-- Where the curve first reaches `k`: a monotone function is at least `k` exactly from there on. -/
theorem le_remap_iff_of_first {n k : Nat} (hbefore : remap n < k) (hfirst : k ≤ remap (n + 1)) (l : Nat) :
    k ≤ remap l ↔ n + 1 ≤ l :=
  ⟨fun h => remap_mono.reflect_lt (hbefore.trans_le h), fun h => hfirst.trans (remap_mono h)⟩

/-! ### REMAP (R112, R113) -/

theorem remapOperand_eq_error {s : State} (h : 0xFFFF < s.arg0.toNat) :
    remapOperand s = .error (.rangeError .arg0) := if_pos h

/-- RES0 holds the curve's value without loss. -/
theorem toNat_ofNat_remap {l : Nat} (h : l ≤ 65535) : (BitVec.ofNat 32 (remap l)).toNat = remap l := by
  have hle : remap l ≤ 0x1EE1 := remap_le_maxOut h
  exact (BitVec.toNat_ofNat _ _).trans (Nat.mod_eq_of_lt (by omega))

/-! ### The obligations of 40_remapper.md -/

/-- Settles O13: each segment is an integer division, and the floor of a quotient of naturals is their division. -/
theorem remapIsTheSpecifiedCurve : Obligations.RemapIsTheSpecifiedCurve := by
  unfold Obligations.RemapIsTheSpecifiedCurve
  refine ⟨fun l hl => ?_, fun l hl hmax => ?_⟩
  · have h := remap_of_lt hl
    refine ⟨h, by rw [h, floor_linear], remap_le_thirty hl, by rw [h]; omega, fun k _ _ => by rw [h]; omega⟩
  · have h := remap_of_ge hl
    exact ⟨h.trans (remapCubic_eq l), by rw [h, floor_cubic hl], thirty_le_remap hl, remap_le_maxOut hmax⟩

/-- Settles O14, by monotonicity, the bound on one step, and the curve's values beside each listed first input. -/
theorem remapIsMonotoneContinuousAndInRange : Obligations.RemapIsMonotoneContinuousAndInRange := by
  unfold Obligations.RemapIsMonotoneContinuousAndInRange
  refine ⟨fun l hl => ?_, fun a b hab _ => remap_mono hab.le, fun l hl => ?_, by decide, by decide, by decide,
    by decide, by decide, fun l _ => ?_⟩
  · have hle : remap l ≤ 0x1EE1 := remap_le_maxOut hl
    exact ⟨hle, by omega⟩
  · have hup : remap l ≤ remap (l + 1) := remap_mono (Nat.le_succ l)
    have hstep := remap_succ_le hl
    omega
  · have h30 : 30 ≤ remap l ↔ 7548 ≤ l := le_remap_iff_of_first (by decide) (by decide) l
    have h31 : 31 ≤ remap l ↔ 7771 ≤ l := le_remap_iff_of_first (by decide) (by decide) l
    exact ⟨by omega, h31, le_remap_iff_of_first (by decide) (by decide) l,
      le_remap_iff_of_first (by decide) (by decide) l, le_remap_iff_of_first (by decide) (by decide) l,
      le_remap_iff_of_first (by decide) (by decide) l⟩

/-- Settles O11, by arithmetic on the byte's value. -/
theorem expandRepeatsTheChannelByte : Obligations.ExpandRepeatsTheChannelByte := by
  unfold Obligations.ExpandRepeatsTheChannelByte
  intro c
  have hle : expand c ≤ 65535 := expand_le c
  exact ⟨rfl, expand_eq_append c, by omega, rfl, rfl⟩

/-- Settles O12, by the outcome of the operand check. -/
theorem remapWritesRes0OrRecordsRangeError : Obligations.RemapWritesRes0OrRecordsRangeError := by
  unfold Obligations.RemapWritesRes0OrRecordsRangeError
  refine ⟨decode_encode .remap, fun s => ⟨fun h => ?_, fun h => ?_⟩⟩
  · exact ⟨exec_remap_of_ok (remapOperand_eq_ok.2 ⟨h, rfl⟩), toNat_ofNat_remap h⟩
  · exact ⟨_, exec_remap_of_error (remapOperand_eq_error h), raise_recorded (.rangeError .arg0) s, rfl⟩

end Sys2Proof.Machine

/-! The adaptive encoder of 41_encoder.md: which multiplier is chosen, how far a rounded quotient is from its input, and
the ENCODE command (R130 to R134). -/

namespace Sys2Proof.Machine

/-! ### The multiplier (R130) -/

theorem fits_iff_forall_channel {r g b m : Nat} :
    fits r g b m = true ↔ ∀ c ∈ [b, g, r], (c + m / 2) / m ≤ 255 := by
  rw [fits_iff, List.forall_mem_cons, List.forall_mem_cons, List.forall_mem_singleton]

theorem pos_of_mem_multipliers {m : Nat} (h : m ∈ multipliers) : 0 < m := by
  revert m
  decide

/-- The brightness byte of each multiplier (R134 (c)). -/
theorem brightnessByte_mem {m : Nat} (h : m ∈ multipliers) :
    brightnessByte m ∈ [0xE1#8, 0xE2#8, 0xE4#8, 0xFF#8] := by
  revert m
  decide

theorem divRound_one (c : Nat) : divRound c 1 = c := Nat.div_one c

/-- Three lightnesses that are bytes already are encoded under multiplier 1 (R134 (a)): 1 fits them, and nothing smaller
is a multiplier. -/
theorem multiplier_eq_one {r g b : Nat} (hr : r ≤ 255) (hg : g ≤ 255) (hb : b ≤ 255) : multiplier r g b = 1 := by
  have h1 : fits r g b 1 = true := fits_iff.2 ⟨(divRound_one b).trans_le hb, (divRound_one g).trans_le hg,
    (divRound_one r).trans_le hr⟩
  rw [multiplier, multipliers, List.find?_cons_of_pos h1, Option.getD_some]

/-! ### The rounded quotients (R134 (b)) -/

/-- Adding half the divisor before dividing leaves a remainder between minus half the divisor and half of it. -/
theorem abs_divRound_mul_sub_le (c : Nat) {m : Nat} (hm : 0 < m) :
    |((divRound c m * m : Nat) : ℤ) - (c : ℤ)| ≤ ((m / 2 : Nat) : ℤ) := by
  have hdiv : divRound c m * m + (c + m / 2) % m = c + m / 2 := Nat.div_add_mod' (c + m / 2) m
  have hmod : (c + m / 2) % m < m := Nat.mod_lt _ hm
  rw [abs_le]
  omega

/-- A quotient that fits in a byte loses nothing there: the byte decodes to its input within half the multiplier. -/
theorem abs_channelByte_mul_sub_le {c m : Nat} (hm : 0 < m) (hc : divRound c m ≤ 255) :
    |(((BitVec.ofNat 8 (divRound c m)).toNat * m : Nat) : ℤ) - (c : ℤ)| ≤ ((m / 2 : Nat) : ℤ) := by
  rw [toNat_ofNat_of_le hc]
  exact abs_divRound_mul_sub_le c hm

/-- Under multiplier 1 a byte that fits is its input. -/
theorem toNat_channelByte_of_eq_one {c m : Nat} (hc : divRound c m ≤ 255) (hm : m = 1) :
    (BitVec.ofNat 8 (divRound c m)).toNat = c := by
  rw [toNat_ofNat_of_le hc, hm, divRound_one]

/-! ### ENCODE's operand check (R131) -/

theorem encodeOperands_eq_error_arg0 {s : State} (h0 : 0x1EE1 < s.arg0.toNat) :
    encodeOperands s = .error (.rangeError .arg0) := if_pos h0

theorem encodeOperands_eq_error_arg1 {s : State} (h0 : s.arg0.toNat ≤ 0x1EE1) (h1 : 0x1EE1 < s.arg1.toNat) :
    encodeOperands s = .error (.rangeError .arg1) := (if_neg (Nat.not_lt.2 h0)).trans (if_pos h1)

theorem encodeOperands_eq_error_arg2 {s : State} (h0 : s.arg0.toNat ≤ 0x1EE1) (h1 : s.arg1.toNat ≤ 0x1EE1)
    (h2 : 0x1EE1 < s.arg2.toNat) : encodeOperands s = .error (.rangeError .arg2) :=
  (if_neg (Nat.not_lt.2 h0)).trans ((if_neg (Nat.not_lt.2 h1)).trans (if_pos h2))

/-- An operand out of range is a RangeError, whichever it is. -/
theorem encodeOperands_eq_rangeError {s : State}
    (h : 0x1EE1 < s.arg0.toNat ∨ 0x1EE1 < s.arg1.toNat ∨ 0x1EE1 < s.arg2.toNat) :
    ∃ x, encodeOperands s = .error (.rangeError x) := by
  rcases Nat.lt_or_ge 0x1EE1 s.arg0.toNat with h0 | h0
  · exact ⟨_, encodeOperands_eq_error_arg0 h0⟩
  rcases Nat.lt_or_ge 0x1EE1 s.arg1.toNat with h1 | h1
  · exact ⟨_, encodeOperands_eq_error_arg1 h0 h1⟩
  · exact ⟨_, encodeOperands_eq_error_arg2 h0 h1 (by omega)⟩

/-! ### The obligations of 41_encoder.md -/

/-- Settles O15: the multiplier by `multiplier_spec`, the outcome by that of the operand check. -/
theorem encodeWritesTheRecordOrRecordsRangeError : Obligations.EncodeWritesTheRecordOrRecordsRangeError := by
  unfold Obligations.EncodeWritesTheRecordOrRecordsRangeError
  refine ⟨decode_encode .encode, fun s => ⟨fun hle => ?_, fun hgt => ?_, encodeOperands_eq_error_arg0,
    encodeOperands_eq_error_arg1, encodeOperands_eq_error_arg2⟩⟩
  · obtain ⟨hr, hg, hb⟩ := hle
    obtain ⟨hmem, hfits, hleast⟩ := multiplier_spec hr hg hb
    refine ⟨_, hmem, fits_iff_forall_channel.1 hfits, fun m' hm' hlt hall => ?_,
      exec_encode_of_ok (encodeOperands_eq_ok.2 ⟨⟨hr, hg, hb⟩, rfl, rfl, rfl⟩)⟩
    have hno := hleast m' hm' hlt
    rw [fits_iff_forall_channel.2 hall] at hno
    cases hno
  · obtain ⟨x, hx⟩ := encodeOperands_eq_rangeError hgt
    exact ⟨_, exec_encode_of_error hx, raise_recorded (.rangeError x) s, rfl⟩

/-- Settles O17: every channel fits under the chosen multiplier, so each byte is the rounded quotient itself. -/
theorem encoderIsMinimalAndNear : Obligations.EncoderIsMinimalAndNear := by
  unfold Obligations.EncoderIsMinimalAndNear
  intro r g b hr hg hb
  obtain ⟨hmem, hfits, -⟩ := multiplier_spec hr hg hb
  have hm := pos_of_mem_multipliers hmem
  obtain ⟨hb', hg', hr'⟩ := fits_iff.1 hfits
  refine ⟨fun ⟨r255, g255, b255⟩ => ?_, ?_, fun _ => by omega, brightnessByte_mem hmem⟩
  · have h1 := multiplier_eq_one r255 g255 b255
    exact ⟨h1, toNat_channelByte_of_eq_one hr' h1, toNat_channelByte_of_eq_one hg' h1,
      toNat_channelByte_of_eq_one hb' h1⟩
  · rw [List.forall_mem_cons, List.forall_mem_cons, List.forall_mem_singleton]
    exact ⟨⟨abs_channelByte_mul_sub_le hm hr', toNat_channelByte_of_eq_one hr'⟩,
      ⟨abs_channelByte_mul_sub_le hm hg', toNat_channelByte_of_eq_one hg'⟩,
      ⟨abs_channelByte_mul_sub_le hm hb', toNat_channelByte_of_eq_one hb'⟩⟩

end Sys2Proof.Machine

/-! The power limiter of 42_power_limiter.md: how far a scaled byte is from its exact value, what LIMIT leaves when it scales
and when it does not, the estimate after it, and which events write LIMITED (R150 to R156). -/

namespace Sys2Proof.Machine

/-! ### Scaling one byte (R153) -/

/-- Scaling as R153 states it over the rational numbers: `2 * T` is the common denominator. -/
theorem floor_scale (bud c : Nat) {t : Nat} (ht : 0 < t) :
    ⌊(c : ℚ) * (bud / (t / 255)) + 1 / 2⌋ = (scale bud t c : ℤ) := by
  have hq : (c : ℚ) * (bud / (t / 255)) + 1 / 2 = ((2 * c * 255 * bud + t : ℕ) : ℚ) / ((2 * t : ℕ) : ℚ) := by
    push_cast; field_simp
  rw [hq, Rat.floor_natCast_div_natCast, scale, Int.natCast_div]

/-- A scaled byte exceeds its exact value by at most 1/2 (R156 (c)). -/
theorem scale_le_exact (bud c : Nat) {t : Nat} (ht : 0 < t) :
    (scale bud t c : ℚ) ≤ (c : ℚ) * (bud / (t / 255)) + 1 / 2 := by
  have hfloor := Int.floor_le ((c : ℚ) * (bud / (t / 255)) + 1 / 2)
  rwa [floor_scale bud c ht, Int.cast_natCast] at hfloor

/-- The same bound on integers. -/
theorem two_mul_scale_le (bud t c : Nat) : 2 * t * scale bud t c ≤ 2 * (255 * bud) * c + t :=
  (Nat.mul_div_le _ _).trans_eq (by ring)

/-! ### LIMIT over the budget (R152) -/

/-- The estimate of a buffer that exceeds is positive, so R153's division is defined. -/
theorem estimate_pos_of_exceeds {s : State} (he : s.exceeds = true) : 0 < s.estimate :=
  Nat.zero_lt_of_lt ((exceeds_iff s).1 he).2

/-- Each channel byte is scaled. -/
theorem limitBuffer_channelByte {s : State} (hw : Memory.wf 0 s.wb = true) (he : s.exceeds = true) {i k : Nat}
    (hi : i < s.count) (hk : k ∈ [1, 2, 3]) : ((limitBuffer s).wireByte (4 + 4 * i + k)).toNat =
      scale s.budget.toNat s.estimate (s.wireByte (4 + 4 * i + k)).toNat := by
  have hchannel : isChannelByte s.count (4 + 4 * i + k) = true := (isChannelByte_iff _ _).2 ⟨i, hi, k, hk, rfl⟩
  rw [limitBuffer_wireByte s hw, he, hchannel, Bool.true_and, if_pos rfl, scaled_toNat s he]

/-- Every byte that is no channel byte is kept. -/
theorem limitBuffer_of_not_channel {s : State} (hw : Memory.wf 0 s.wb = true) {j : Nat}
    (hj : ∀ i < s.count, ∀ k ∈ [1, 2, 3], j ≠ 4 + 4 * i + k) : (limitBuffer s).wireByte j = s.wireByte j := by
  have hchannel : ¬ isChannelByte s.count j = true := fun h => by
    obtain ⟨i, hi, k, hk, rfl⟩ := (isChannelByte_iff _ _).1 h
    exact hj i hi k hk rfl
  rw [limitBuffer_wireByte s hw, if_neg]
  rw [Bool.and_eq_true]
  exact fun h => hchannel h.2

/-- LIMIT writes no bit of STATUS but LIMITED. -/
theorem limitBuffer_onlyBit (s : State) : OnlyBit 4 s.exceeds s.status (limitBuffer s).status :=
  fun k _ => limitBuffer_getLsbD s k

/-- LIMIT writes nothing but the wire buffer and STATUS. -/
theorem limitBuffer_eq_with (s : State) :
    limitBuffer s = { s with wb := (limitBuffer s).wb, status := (limitBuffer s).status } := by
  unfold limitBuffer
  split <;> rfl

theorem limitBuffer_count (s : State) : (limitBuffer s).count = s.count := by
  rw [limitBuffer_frame]; rfl

theorem limitBuffer_estimate (s : State) :
    (limitBuffer s).estimate = s.curPerCh.toNat * (limitBuffer s).channelSum := by
  rw [State.estimate, show (limitBuffer s).curPerCh = s.curPerCh by rw [limitBuffer_frame]]

/-! ### LIMIT not over the budget (R151, R154) -/

/-- A LIMIT that does not scale only clears LIMITED. -/
theorem exec_limit_of_not_exceeds {s : State} (he : ¬ s.exceeds = true) :
    ∃ t, exec .limit s = .next t ∧ t = { s with status := t.status } ∧ OnlyBit 4 false s.status t.status := by
  have hkeep : limitBuffer s = s.setLimited false := if_neg he
  exact ⟨s.setLimited false, congrArg _ hkeep, rfl, fun k _ => putBit_getLsbD 4 false s.status (by decide) k⟩

/-- With K = 0 the estimate is 0 (R154). -/
theorem estimate_of_curPerCh_zero {s : State} (hk : s.curPerCh = 0) : s.estimate = 0 := by
  rw [State.estimate, hk]; exact Nat.zero_mul _

/-! ### The estimate after LIMIT (R156 (c)) -/

/-- A linear bound on every term, summed. -/
theorem mul_sumBelow_le {n t a b : Nat} {f g : Nat → Nat} (h : ∀ i < n, t * g i ≤ a * f i + b) :
    t * sumBelow n g ≤ a * sumBelow n f + n * b := by
  induction n with
  | zero => exact Nat.zero_le _
  | succ n ih =>
    have hlast := h n (Nat.lt_succ_self n)
    have hinit := ih fun i hi => h i (Nat.lt_succ_of_lt hi)
    rw [sumBelow, sumBelow]
    linarith

/-- The three rounding errors of one record. -/
theorem limitBuffer_record_channelSum_le {s : State} (hw : Memory.wf 0 s.wb = true) (he : s.exceeds = true) {i : Nat}
    (hi : i < s.count) : 2 * s.estimate * ((limitBuffer s).record i).channelSum ≤
      2 * (255 * s.budget.toNat) * (s.record i).channelSum + 3 * s.estimate := by
  have hbyte (k : Nat) (hk : k ∈ [1, 2, 3]) :
      2 * s.estimate * ((limitBuffer s).wireByte (4 + 4 * i + k)).toNat ≤
        2 * (255 * s.budget.toNat) * (s.wireByte (4 + 4 * i + k)).toNat + s.estimate := by
    rw [limitBuffer_channelByte hw he hi hk]
    exact two_mul_scale_le _ _ _
  have hb := hbyte 1 (by decide)
  have hg := hbyte 2 (by decide)
  have hr := hbyte 3 (by decide)
  rw [Record.channelSum, Record.channelSum, State.record, State.record]
  linarith

/-- Summed over the records and multiplied by K, with one factor `T` taken out. -/
theorem limitBuffer_estimate_le {s : State} (hw : Memory.wf 0 s.wb = true) (he : s.exceeds = true) :
    2 * (limitBuffer s).estimate ≤ 2 * (255 * s.budget.toNat) + 3 * (s.count * s.curPerCh.toNat) := by
  have hsum : 2 * s.estimate * (limitBuffer s).channelSum ≤
      2 * (255 * s.budget.toNat) * s.channelSum + s.count * (3 * s.estimate) := by
    rw [State.channelSum, limitBuffer_count]
    exact mul_sumBelow_le fun i hi => limitBuffer_record_channelSum_le hw he hi
  refine Nat.le_of_mul_le_mul_left ?_ (estimate_pos_of_exceeds he)
  calc s.estimate * (2 * (limitBuffer s).estimate)
      = s.curPerCh.toNat * (2 * s.estimate * (limitBuffer s).channelSum) := by
        rw [limitBuffer_estimate]; ring
    _ ≤ s.curPerCh.toNat * (2 * (255 * s.budget.toNat) * s.channelSum + s.count * (3 * s.estimate)) :=
        Nat.mul_le_mul_left _ hsum
    _ = s.estimate * (2 * (255 * s.budget.toNat) + 3 * (s.count * s.curPerCh.toNat)) := by
        rw [State.estimate]; ring

/-! ### The two examples of R156 (d) -/

/-- A block whose wire buffer holds these records, with K and BUDGET set. -/
def State.holding (c : Config) (rs : List Record) (k : Half) (bud : Word) : State :=
  { State.resetWith c with
    ledCount := BitVec.ofNat 32 rs.length
    curPerCh := k
    budget := bud
    wb := Memory.ofList 0 0 (packFrame rs) }

theorem holding_count {c : Config} {rs : List Record} (k : Half) (bud : Word) (h : rs.length ≤ c.nmax.val) :
    (State.holding c rs k bud).count = rs.length := by
  have hmax := c.nmax.isLt
  exact (BitVec.toNat_ofNat _ _).trans (Nat.mod_eq_of_lt (by omega))

theorem holding_wireByte (c : Config) (rs : List Record) (k : Half) (bud : Word) (j : Nat) :
    (State.holding c rs k bud).wireByte j = (packFrame rs).getD j 0 :=
  Memory.read_ofList (packFrame rs) 0 j (Nat.zero_le j)

/-- At most NMAX packed records meet the invariant of the memories. -/
theorem holding_memoryInv {c : Config} {rs : List Record} (k : Half) (bud : Word) (h : rs.length ≤ c.nmax.val) :
    (State.holding c rs k bud).MemoryInv where
  pix_wf := rfl
  wb_wf := Memory.wf_ofList _ _
  count_le := (holding_count k bud h).trans_le h
  pix_above _ _ := rfl
  start_zero j hj := (holding_wireByte c rs k bud j).trans (packFrame_zero rs j (.inl hj))
  filler_zero j hj := by
    rw [holding_count k bud h] at hj
    exact (holding_wireByte c rs k bud j).trans (packFrame_zero rs j (.inr hj))

/-- The record RENDER makes of the pixel 0xB1272F, with K = 93 and BUDGET = 27: the second LIMIT changes a byte. -/
def scaledTwice : State := State.holding ⟨150, 0⟩ [⟨0xFF#8, 0x02#8, 0x01#8, 0x56#8⟩] 93 27

/-- Three white LEDs with K = 20 and BUDGET = 90: the second LIMIT changes no byte and still sets LIMITED. -/
def scaledToItself : State := State.holding ⟨150, 0⟩ (List.replicate 3 ⟨0xFF#8, 0xFF#8, 0xFF#8, 0xFF#8⟩) 20 90

/-! ### Which events write LIMITED (R155) -/

theorem raise_limited (x : BlockError) (s : State) : (raise x s).limited = s.limited :=
  statusAfterError_mid x s.status 4 (by decide) (by decide)

theorem clearErrors_limited (v : Word) (s : State) : (clearErrors v s).limited = s.limited :=
  statusAfterWrite_low v s.status 4 (by decide)

theorem renderBuffer_limited (s : State) : (renderBuffer s).limited = s.limited := renderBuffer_getLsbD s 4

/-- A LED_COUNT write clears LIMITED when it changes N, and else keeps both. -/
theorem writeLedCount_limited (v : Word) (s : State) :
    ((writeLedCount v s).ledCount ≠ s.ledCount ∧ (writeLedCount v s).limited = false) ∨
    ((writeLedCount v s).ledCount = s.ledCount ∧ (writeLedCount v s).limited = s.limited) := by
  rcases writeLedCount_cases v s with ⟨hled, _, _, hflags⟩ | ⟨hled, hne, _, _, _, hstatus⟩
  · exact .inr ⟨hled, hflags 4 (by decide) (by decide)⟩
  · refine .inl ⟨hled.trans_ne hne, ?_⟩
    rw [State.limited, hstatus, putBit_getLsbD _ _ _ (by decide), if_pos rfl]

/-- No command but LIMIT and FRAME writes LIMITED. -/
theorem exec_limited {i : Instr} {s t : State} (hl : i ≠ .limit) (hf : i ≠ .frame) (h : exec i s = .next t) :
    t.limited = s.limited := by
  rcases exec_cases i s with ⟨_, h1⟩ | ⟨e, h1, _⟩ | ⟨_, _, h1⟩ | ⟨_, _, _, _, h1⟩ | ⟨hi, _⟩ | ⟨_, h1⟩ | ⟨hi, _⟩
  · rw [h1] at h; cases h; rfl
  · rw [h1] at h; cases h; exact raise_limited e s
  · rw [h1] at h; cases h; rfl
  · rw [h1] at h; cases h; rfl
  · exact absurd hi hl
  · rw [h1] at h; cases h; exact renderBuffer_limited s
  · exact absurd hi hf

/-- What one event leaves in LIMITED: a reset and a change of N clear it, LIMIT and FRAME keep N and write it, and every other
event keeps both. -/
theorem EventCases.limited_cases {e : PortEvent} {s t : State} (h : EventCases e s t) :
    ((e = .reset ∨ t.ledCount ≠ s.ledCount) ∧ t.limited = false) ∨
    (e ≠ .reset ∧ t.ledCount = s.ledCount ∧ (e = .access (.write32 0x00#32 (encode .limit)) ∨
      e = .access (.write32 0x00#32 (encode .frame)) ∨ t.limited = s.limited)) := by
  cases h with
  | reset he ht => subst ht; exact .inl ⟨.inl he, BitVec.getLsbD_zero⟩
  | busR a he addr ht =>
    subst he
    rcases ht with ⟨rfl, _⟩ | ⟨rfl, _⟩ <;> exact .inr ⟨nofun, rfl, .inr (.inr (raise_limited _ s))⟩
  | busW a he hw addr ht => subst he ht; exact .inr ⟨nofun, rfl, .inr (.inr (raise_limited _ s))⟩
  | ill v he r hr ht => subst he ht; exact .inr ⟨nofun, rfl, .inr (.inr (raise_limited _ s))⟩
  | status v he ht => subst he ht; exact .inr ⟨nofun, rfl, .inr (.inr (clearErrors_limited v s))⟩
  | led v he ht =>
    subst he ht
    rcases writeLedCount_limited v s with ⟨hne, hclear⟩ | ⟨heq, hkeep⟩
    · exact .inl ⟨.inr hne, hclear⟩
    · exact .inr ⟨nofun, heq, .inr (.inr hkeep)⟩
  | cmd v i he hd ht =>
    subst he
    obtain rfl := decode_eq_command hd
    obtain ⟨_, _, _, hled, _⟩ := exec_frame ht
    refine .inr ⟨nofun, hled, ?_⟩
    by_cases hl : i = .limit
    · exact .inl (hl ▸ rfl)
    by_cases hf : i = .frame
    · exact .inr (.inl (hf ▸ rfl))
    · exact .inr (.inr (exec_limited hl hf ht))
  | _ => subst e t; exact .inr ⟨nofun, rfl, .inr (.inr rfl)⟩

/-! ### The obligations of 42_power_limiter.md -/

/-- Settles O18, by the two branches of LIMIT. -/
theorem limitScalesExactlyWhenOverBudget : Obligations.LimitScalesExactlyWhenOverBudget := by
  unfold Obligations.LimitScalesExactlyWhenOverBudget
  refine ⟨decode_encode .limit, fun s hw => ?_⟩
  intro n bud sum total
  have htotal : s.estimate = total := estimate_eq_sum s
  have hexceeds : s.exceeds = true ↔ bud ≠ 0 ∧ 255 * bud < total := htotal ▸ exceeds_iff s
  refine ⟨fun hover => ?_, fun hunder => exec_limit_of_not_exceeds (mt hexceeds.1 hunder)⟩
  have he := hexceeds.2 hover
  refine ⟨limitBuffer s, rfl, limitBuffer_eq_with s, he ▸ limitBuffer_onlyBit s, fun i hi k hk => ?_,
    fun j hj => limitBuffer_of_not_channel hw hj⟩
  have hbyte := limitBuffer_channelByte hw he hi hk
  rw [htotal] at hbyte
  refine ⟨hbyte, ?_, limitBuffer_le s hw _⟩
  rw [hbyte, floor_scale _ _ (htotal ▸ estimate_pos_of_exceeds he)]

/-- Settles O20: each byte by its rounding error, the estimate by their sum, and the examples by running LIMIT. -/
theorem limitKeepsTheBudgetWithinRounding : Obligations.LimitKeepsTheBudgetWithinRounding := by
  unfold Obligations.LimitKeepsTheBudgetWithinRounding
  refine ⟨fun s hw hbud hover => ?_, ?_, ?_⟩
  · have he : s.exceeds = true := (exceeds_iff s).2 ⟨hbud, hover⟩
    have hestimate := limitBuffer_estimate_le hw he
    refine ⟨limitBuffer s, rfl, fun j => ?_, fun j hj => limitBuffer_other s hw j hj, fun i hi k hk => ?_, hestimate, ?_⟩
    · have hle := limitBuffer_le s hw j
      refine ⟨hle, fun hzero => ?_⟩
      rw [hzero] at hle
      exact BitVec.eq_of_toNat_eq (Nat.le_zero.1 hle)
    · rw [limitBuffer_channelByte hw he hi hk]
      exact scale_le_exact _ _ (estimate_pos_of_exceeds he)
    · have hcast : (2 * (limitBuffer s).estimate : ℚ) ≤
          2 * (255 * s.budget.toNat) + 3 * (s.count * s.curPerCh.toNat) := mod_cast hestimate
      linarith
  · exact ⟨scaledTwice, _, _, _, holding_memoryInv _ _ (by decide), rfl, rfl, rfl, by decide, by decide,
      rfl, by decide, by decide, by decide, rfl, by decide, by decide, by decide, rfl, by decide, by decide⟩
  · exact ⟨scaledToItself, _, _, holding_memoryInv _ _ (by decide), rfl, rfl, rfl, by decide, rfl, by decide,
      rfl, by decide, by decide⟩

/-- Settles O37, by inversion of the step (`EventCases.limited_cases`). -/
theorem limitedReportsTheLastLimit : Obligations.LimitedReportsTheLastLimit := by
  unfold Obligations.LimitedReportsTheLastLimit
  refine ⟨fun s => ⟨_, rfl, limitBuffer_limited s⟩,
    fun s => ⟨_, _, rfl, execFrame_eq s, limitBuffer_limited (renderBuffer s)⟩, fun s t e rest hp hs => ?_⟩
  rcases (step_cases hp hs).limited_cases with ⟨hwhy, hclear⟩ | ⟨hreset, hled, hwrites⟩
  · refine ⟨fun _ => hclear, fun _ => hclear, fun hreset hled => ?_⟩
    exact absurd hwhy (not_or.2 ⟨hreset, not_not.2 hled⟩)
  · refine ⟨fun h => absurd h hreset, fun h => absurd hled h, fun _ _ hl hf => ?_⟩
    exact (hwrites.resolve_left hl).resolve_left hf

/-- Settles O19: with BUDGET 0 the limiter is off, and with K = 0 the estimate is 0. -/
theorem zeroBudgetDisablesTheLimiter : Obligations.ZeroBudgetDisablesTheLimiter := by
  unfold Obligations.ZeroBudgetDisablesTheLimiter
  intro s hzero
  refine exec_limit_of_not_exceeds fun he => ?_
  obtain ⟨hbud, hover⟩ := (exceeds_iff s).1 he
  rcases hzero with hb | hk
  · exact hbud (congrArg BitVec.toNat hb)
  · rw [estimate_of_curPerCh_zero hk] at hover
    exact Nat.not_lt_zero _ hover

end Sys2Proof.Machine

/-! The frame packer and the pipeline of 43_frame_packer.md: NOP, RENDER, FRAME as RENDER and then LIMIT, and which events
write FRAME_VALID (R171, R173, R175, R176). -/

namespace Sys2Proof.Machine

/-! ### RENDER (R173) -/

/-- RENDER writes no bit of STATUS but FRAME_VALID. -/
theorem renderBuffer_onlyBit (s : State) : OnlyBit 5 true s.status (renderBuffer s).status :=
  fun k _ => renderBuffer_getLsbD s k

theorem renderBuffer_frameValid (s : State) : (renderBuffer s).frameValid = true :=
  (renderBuffer_getLsbD s 5).trans (if_pos rfl)

theorem limitBuffer_frameValid (s : State) : (limitBuffer s).frameValid = s.frameValid :=
  (limitBuffer_getLsbD s 5).trans (if_neg (by decide))

/-! ### FRAME (R176) -/

/-- With BUDGET 0 no buffer is over the budget (42_power_limiter.md R151). -/
theorem not_exceeds_of_budget_zero {s : State} (h : s.budget = 0#32) : ¬ s.exceeds = true :=
  fun he => ((exceeds_iff s).1 he).1 (congrArg BitVec.toNat h)

/-- LIMIT does not look at RES0. -/
theorem limitBuffer_setRes0 (s : State) (r : Word) : limitBuffer (s.setRes0 r) = (limitBuffer s).setRes0 r := by
  have he : (s.setRes0 r).exceeds = s.exceeds := rfl
  unfold limitBuffer
  rw [he]
  split <;> rfl

/-- FRAME does not look at RES0. -/
theorem exec_frame_setRes0 (s : State) (r : Word) :
    exec .frame (s.setRes0 r) = .next ((limitBuffer (renderBuffer s)).setRes0 r) :=
  (execFrame_eq _).trans (congrArg Host.Outcome.next (limitBuffer_setRes0 (renderBuffer s) r))

/-! ### What keeps a frame (R175) -/

/-- From `s` to `t` FRAME_VALID stays, and no byte of a canonical wire buffer grows. -/
structure FrameKept (s t : State) : Prop where
  frameValid : t.frameValid = s.frameValid
  wireByte_le : Memory.wf 0 s.wb = true → ∀ j, (t.wireByte j).toNat ≤ (s.wireByte j).toNat

theorem FrameKept.of_wb_eq {s t : State} (hvalid : t.frameValid = s.frameValid) (hwb : t.wb = s.wb) : FrameKept s t :=
  ⟨hvalid, fun _ j => by rw [State.wireByte, State.wireByte, hwb]⟩

/-- A buffer that is zero stays zero. -/
theorem FrameKept.wireByte_eq_zero {s t : State} (h : FrameKept s t) (hw : Memory.wf 0 s.wb = true) {j : Nat}
    (hzero : s.wireByte j = 0) : t.wireByte j = 0 := by
  have hle := h.wireByte_le hw j
  rw [hzero] at hle
  exact BitVec.eq_of_toNat_eq (Nat.le_zero.1 hle)

theorem raise_frameKept (x : BlockError) (s : State) : FrameKept s (raise x s) :=
  .of_wb_eq (statusAfterError_mid x s.status 5 (by decide) (by decide)) rfl

theorem clearErrors_frameKept (v : Word) (s : State) : FrameKept s (clearErrors v s) :=
  .of_wb_eq (statusAfterWrite_low v s.status 5 (by decide)) rfl

/-- LIMIT keeps FRAME_VALID and raises no byte (42_power_limiter.md R156). -/
theorem limitBuffer_frameKept (s : State) : FrameKept s (limitBuffer s) :=
  ⟨limitBuffer_frameValid s, limitBuffer_le s⟩

/-- A LED_COUNT write that changes N clears FRAME_VALID and the buffer; every other one keeps N and the frame (R24). -/
theorem writeLedCount_frameKept (v : Word) (s : State) :
    ((writeLedCount v s).ledCount ≠ s.ledCount ∧ (writeLedCount v s).frameValid = false ∧
      ∀ j, (writeLedCount v s).wireByte j = 0) ∨
    ((writeLedCount v s).ledCount = s.ledCount ∧ FrameKept s (writeLedCount v s)) := by
  rcases writeLedCount_cases v s with ⟨hled, _, hwb, hflags⟩ | ⟨hled, hne, _, _, hwb, hstatus⟩
  · exact .inr ⟨hled, .of_wb_eq (hflags 5 (by decide) (by decide)) hwb⟩
  · refine .inl ⟨hled.trans_ne hne, ?_, fun j => by rw [State.wireByte, hwb]; rfl⟩
    rw [State.frameValid, hstatus, putBit_getLsbD _ _ _ (by decide), if_neg (by decide),
      putBit_getLsbD _ _ _ (by decide), if_pos rfl]

/-- No command but RENDER and FRAME writes FRAME_VALID or raises a byte. -/
theorem exec_frameKept {i : Instr} {s t : State} (hr : i ≠ .render) (hf : i ≠ .frame) (h : exec i s = .next t) :
    FrameKept s t := by
  rcases exec_cases i s with ⟨_, h1⟩ | ⟨e, h1, _⟩ | ⟨_, _, h1⟩ | ⟨_, _, _, _, h1⟩ | ⟨_, h1⟩ | ⟨hi, h1⟩ | ⟨hi, h1⟩ <;>
    rw [h1] at h <;> cases h
  · exact .of_wb_eq rfl rfl
  · exact raise_frameKept e s
  · exact .of_wb_eq rfl rfl
  · exact .of_wb_eq rfl rfl
  · exact limitBuffer_frameKept s
  · exact absurd hi hr
  · exact absurd hi hf

/-- What one event leaves of the frame: a reset and a change of N clear FRAME_VALID and the buffer, RENDER and FRAME keep N,
and every other event keeps N and the frame. -/
theorem EventCases.frameValid_cases {e : PortEvent} {s t : State} (h : EventCases e s t) :
    ((e = .reset ∨ t.ledCount ≠ s.ledCount) ∧ t.frameValid = false ∧ ∀ j, t.wireByte j = 0) ∨
    (e ≠ .reset ∧ t.ledCount = s.ledCount ∧ (e = .access (.write32 0x00#32 (encode .render)) ∨
      e = .access (.write32 0x00#32 (encode .frame)) ∨ FrameKept s t)) := by
  cases h with
  | reset he ht => subst ht; exact .inl ⟨.inl he, BitVec.getLsbD_zero, fun _ => rfl⟩
  | busR a he addr ht =>
    subst he
    have hkept := raise_frameKept (.busError addr) s
    rcases ht with ⟨rfl, _⟩ | ⟨rfl, _⟩ <;> exact .inr ⟨nofun, rfl, .inr (.inr (.of_wb_eq hkept.frameValid rfl))⟩
  | busW a he hw addr ht => subst he ht; exact .inr ⟨nofun, rfl, .inr (.inr (raise_frameKept _ s))⟩
  | ill v he r hr ht => subst he ht; exact .inr ⟨nofun, rfl, .inr (.inr (raise_frameKept _ s))⟩
  | status v he ht => subst he ht; exact .inr ⟨nofun, rfl, .inr (.inr (clearErrors_frameKept v s))⟩
  | led v he ht =>
    subst he ht
    rcases writeLedCount_frameKept v s with ⟨hne, hclear⟩ | ⟨hled, hkept⟩
    · exact .inl ⟨.inr hne, hclear⟩
    · exact .inr ⟨nofun, hled, .inr (.inr hkept)⟩
  | cmd v i he hd ht =>
    subst he
    obtain rfl := decode_eq_command hd
    obtain ⟨_, _, _, hled, _⟩ := exec_frame ht
    refine .inr ⟨nofun, hled, ?_⟩
    by_cases hr : i = .render
    · exact .inl (hr ▸ rfl)
    by_cases hf : i = .frame
    · exact .inr (.inl (hf ▸ rfl))
    · exact .inr (.inr (exec_frameKept hr hf ht))
  | _ => subst e t; exact .inr ⟨nofun, rfl, .inr (.inr (.of_wb_eq rfl rfl))⟩

/-- A step on RENDER or FRAME leaves FRAME_VALID set. -/
theorem step_frameValid_of_render_or_frame {s t : State} {e : PortEvent} {rest : List PortEvent}
    (hp : s.pending = e :: rest) (hs : step s = .next t)
    (he : e = .access (.write32 Reg.cmd.offset (encode .render)) ∨
      e = .access (.write32 Reg.cmd.offset (encode .frame))) : t.frameValid = true := by
  rcases he with rfl | rfl
  · obtain rfl : renderBuffer _ = t := Host.Outcome.next.inj ((step_cmdWrite_encode hp).symm.trans hs)
    exact renderBuffer_frameValid _
  · obtain rfl : limitBuffer (renderBuffer _) = t := Host.Outcome.next.inj
      ((execFrame_eq _).symm.trans ((step_cmdWrite_encode hp).symm.trans hs))
    exact (limitBuffer_frameValid _).trans (renderBuffer_frameValid _)

/-! ### The obligations of 43_frame_packer.md -/

/-- Settles O22, by what RENDER leaves in each byte and in STATUS. -/
theorem renderPacksEveryPixel : Obligations.RenderPacksEveryPixel := by
  unfold Obligations.RenderPacksEveryPixel
  exact ⟨decode_encode .render, fun s => ⟨renderBuffer s, rfl, rfl, renderBuffer_onlyBit s, renderBuffer_record s,
    fun j hj => renderBuffer_zero s j (.inl hj), fun j hj => renderBuffer_zero s j (.inr hj)⟩⟩

/-- Settles O23: FRAME is LIMIT on RENDER's state, which with BUDGET 0 only clears LIMITED. -/
theorem frameIsRenderThenLimit : Obligations.FrameIsRenderThenLimit := by
  unfold Obligations.FrameIsRenderThenLimit
  refine ⟨decode_encode .frame, fun s => ⟨renderBuffer s, limitBuffer (renderBuffer s), rfl, execFrame_eq s,
    fun _ => rfl, fun hzero => ?_, limitBuffer_eq_with (renderBuffer s),
    (limitBuffer_frameValid _).trans (renderBuffer_frameValid s), fun a b c r =>
      exec_args (i := .frame) a b c nofun nofun (exec_frame_setRes0 s r)⟩⟩
  have hunder : ¬ (renderBuffer s).exceeds = true := not_exceeds_of_budget_zero hzero
  obtain ⟨u, hexec, hkeep, hbit⟩ := exec_limit_of_not_exceeds hunder
  obtain rfl : limitBuffer (renderBuffer s) = u := Host.Outcome.next.inj hexec
  exact ⟨hkeep, hbit, rfl⟩

/-- Settles O38, by inversion of the step (`EventCases.frameValid_cases`). -/
theorem frameValidReportsARenderedBuffer : Obligations.FrameValidReportsARenderedBuffer := by
  unfold Obligations.FrameValidReportsARenderedBuffer
  intro s t e rest hp hs
  have hset := step_frameValid_of_render_or_frame hp hs
  rcases (step_cases hp hs).frameValid_cases with ⟨hwhy, hclear, hzero⟩ | ⟨hreset, hled, hwrites⟩
  · refine ⟨hset, fun _ => hclear, fun _ => hclear, fun hreset hled => ?_, fun _ _ => hzero⟩
    exact absurd hwhy (not_or.2 ⟨hreset, not_not.2 hled⟩)
  · refine ⟨hset, fun h => absurd h hreset, fun h => absurd hled h, fun _ _ hr hf => ?_, fun hinv hclear j => ?_⟩
    · exact ((hwrites.resolve_left hr).resolve_left hf).frameValid
    · have hnot : ¬ t.frameValid = true := Bool.eq_false_iff.1 hclear
      have hkept : FrameKept (s.setPending rest) t :=
        (hwrites.resolve_left fun h => hnot (hset (.inl h))).resolve_left fun h => hnot (hset (.inr h))
      exact hkept.wireByte_eq_zero hinv.memory.wb_wf (hinv.frame.invalid_zero (hkept.frameValid.symm.trans hclear) j)

/-- Settles O10: the word of NOP is 0, and a word with an RSV bit set is no command's word. -/
theorem nopChangesNothing : Obligations.NopChangesNothing := by
  unfold Obligations.NopChangesNothing
  refine ⟨fun _ => rfl, fun v => ⟨decode_eq_command, fun hv => hv ▸ decode_encode .nop⟩, fun s v _ hrsv => ?_⟩
  obtain ⟨r, hr⟩ := decode_reject_of_illegal (.inl hrsv)
  exact ⟨_, (perform_write32_reg .cmd v s).trans (performCommand_of_reject hr s),
    raise_recorded (.illegalCommand v) s, rfl⟩

end Sys2Proof.Machine

/-! The error bits of 60_exceptions.md: a STATUS write clears the ones it names, and nothing else but reset clears one
(R207, with R23). -/

namespace Sys2Proof.Machine

/-! ### A STATUS write (R23) -/

/-- A bit of CAUSE after a STATUS write: 0 when the write leaves no error bit, else as before. -/
theorem statusAfterWrite_getLsbD_cause (v w : Word) (k : Nat) (h8 : 8 ≤ k) (h11 : k ≤ 11) :
    (statusAfterWrite v w).getLsbD k = if noErrorBits (statusAfterWrite v w) then false else w.getLsbD k := by
  rw [getLsbD_cause _ k h8 h11, statusAfterWrite_cause]
  split_ifs with hnone
  · exact BitVec.getLsbD_zero
  · exact (getLsbD_cause w k h8 h11).symm

/-! ### What clears an error bit (R207) -/

/-- Recording an error clears no error bit. -/
theorem statusAfterError_errorBit_of_set (x : BlockError) {w : Word} {k : Nat} (hk : k < 3) (hset : w.getLsbD k = true) :
    (statusAfterError x w).getLsbD k = true := by
  rw [statusAfterError_getLsbD x w k (by omega)]
  split_ifs with hbit hcause
  · rfl
  · omega
  · exact hset

/-- An event that clears an error bit is a reset or a STATUS write with a 1 in the bit's place. -/
theorem StatusCases.of_errorBit_cleared {e : PortEvent} {s t : State} (h : StatusCases e s t) {k : Nat} (hk : k < 3)
    (hset : s.status.getLsbD k = true) (hclear : t.status.getLsbD k = false) :
    e = .reset ∨ ∃ v : Word, e = .access (.write32 0x04#32 v) ∧ v.getLsbD k = true := by
  have hchange : t.status.getLsbD k ≠ s.status.getLsbD k := by rw [hset, hclear]; exact Bool.false_ne_true
  cases h with
  | reset he => exact .inl he
  | same ht => exact absurd (by rw [ht]) hchange
  | err x ht => exact absurd (by rw [ht, hset, statusAfterError_errorBit_of_set x hk hset]) hchange
  | wr v he ht =>
    obtain ⟨herror, _⟩ := statusAfterWrite_bits v s.status
    rw [ht, herror k hk, hset, Bool.true_and, Bool.not_eq_false'] at hclear
    exact .inr ⟨v, he, hclear⟩
  | flags _ _ w hw ht => exact absurd (by rw [ht, hw k (by omega) (by omega)]) hchange

/-! ### The obligations of 60_exceptions.md -/

/-- Settles O35: STATUS after a write bit by bit, the inversion of a step's STATUS, and what `raise` records. -/
theorem errorBitsAreStickyAndWriteOneToClear : Obligations.ErrorBitsAreStickyAndWriteOneToClear := by
  unfold Obligations.ErrorBitsAreStickyAndWriteOneToClear
  refine ⟨fun s v => ?_, fun s t e rest k hp hs hk hset hclear =>
    (status_cases (step_cases hp hs)).of_errorBit_cleared hk hset hclear, fun s e => ?_⟩
  · obtain ⟨herror, hother⟩ := statusAfterWrite_bits v s.status
    refine ⟨clearErrors v s, perform_write32_reg .status v s, rfl, herror, hother, fun hnone k h8 h11 => ?_,
      fun ⟨j, hj, hleft⟩ k h8 h11 => ?_⟩
    · exact (statusAfterWrite_getLsbD_cause v s.status k h8 h11).trans (if_pos ((noErrorBits_iff _).2 hnone))
    · refine (statusAfterWrite_getLsbD_cause v s.status k h8 h11).trans (if_neg fun hnone => ?_)
      exact Bool.false_ne_true (((noErrorBits_iff _).1 hnone j hj).symm.trans hleft)
  · cases e with
    | illegalCommand cmd => exact raise_recorded (.illegalCommand cmd) s
    | rangeError what => exact raise_recorded (.rangeError what) s
    | busError addr => exact raise_recorded (.busError addr) s

end Sys2Proof.Machine

/-! Reset (70_reset_and_hazards.md R230): the state it leaves, row by row, and the step that performs a reset event. -/

namespace Sys2Proof.Machine

/-! ### The state after reset -/

/-- With no LED the wire buffer is the start frame and one filler byte (R170). -/
theorem bufferLen_zero : bufferLen 0 = 5 := rfl

/-- The parameters, the queue and the replies are no rows of the table: whatever they are, every row is at its value. -/
theorem resetWith_atReset (c : Config) (es : List PortEvent) (rs : List Reply) :
    State.AtReset { State.resetWith c with pending := es, replies := rs } where
  cmd := rfl
  status := rfl
  ledCount := rfl
  curPerCh := rfl
  budget := rfl
  arg0 := rfl
  arg1 := rfl
  arg2 := rfl
  res0 := rfl
  bufLen := congrArg (BitVec.ofNat 32) bufferLen_zero
  pix _ := rfl
  wb_length := bufferLen_zero
  wb _ := rfl

/-- A reset event leaves every row at its value, whatever the state held before. -/
theorem applyReset_atReset (s : State) : (applyReset s).AtReset :=
  resetWith_atReset s.cfg s.pending s.replies

/-! ### The step -/

/-- With a reset event the oldest in the queue, a step takes it out of the queue and resets the block. -/
theorem step_reset {s : State} {rest : List PortEvent} (hp : s.pending = .reset :: rest) :
    step s = .next (applyReset (s.setPending rest)) := by
  rw [step, hp]
  rfl

/-! ### The obligation of 70_reset_and_hazards.md -/

/-- Settles O1: power-on reset and a reset event leave the same rows, and the step performs the event. -/
theorem resetPutsEveryPieceAtItsValue : Obligations.ResetPutsEveryPieceAtItsValue := by
  unfold Obligations.ResetPutsEveryPieceAtItsValue
  refine ⟨resetWith_atReset Config.block [] [], fun s rest hp => ?_⟩
  exact ⟨applyReset (s.setPending rest), step_reset hp, applyReset_atReset (s.setPending rest)⟩

end Sys2Proof.Machine

/-! The whole of 30_encoding.md's decoder: on every 32-bit word decode and encode are each other's inverse, and the refused
words are exactly those the well-formedness check refuses (R90 to R93). -/

namespace Sys2Proof.Machine

/-! ### Decode and encode agree -/

/-- The six defined opcodes are each a command's (R91). -/
theorem exists_decodeOp_eq_command {op : BitVec 4} (h : op.toNat ≤ 5) : ∃ i, decodeOp op = .command i := by
  obtain ⟨i, -, hi⟩ : ∃ i ∈ [Instr.nop, .remap, .encode, .limit, .render, .frame], decodeOp op = .command i := by
    revert op
    decide
  exact ⟨i, hi⟩

/-- The well-formedness check looks at the two fields of R90. -/
theorem commandWordWf_iff {v : Word} : commandWordWf v = true ↔ rsvField v = 0#28 ∧ (opField v).toNat ≤ 5 := by
  unfold commandWordWf reservedFieldZero opcodeDefined rsvField opField
  rw [Bool.and_eq_true, beq_iff_eq, decide_eq_true_iff]

/-- A well-formed command word is a command's (R92). -/
theorem exists_decode_eq_command_of_wf {v : Word} (h : commandWordWf v = true) : ∃ i, decode v = .command i := by
  obtain ⟨hrsv, hop⟩ := commandWordWf_iff.1 h
  rw [decode, if_pos hrsv]
  exact exists_decodeOp_eq_command hop

theorem decode_eq_command_iff {v : Word} {i : Instr} : decode v = .command i ↔ v = encode i :=
  ⟨decode_eq_command, fun h => h ▸ decode_encode i⟩

/-- A word is refused exactly when the check fails. -/
theorem exists_decode_eq_reject_iff {v : Word} : (∃ r, decode v = .reject r) ↔ ¬ commandWordWf v = true := by
  constructor
  · rintro ⟨r, hr⟩ hwf
    obtain ⟨i, hi⟩ := exists_decode_eq_command_of_wf hwf
    rw [hi] at hr
    cases hr
  · intro hwf
    rw [commandWordWf_iff, not_and_or, Nat.not_le] at hwf
    exact decode_reject_of_illegal hwf

theorem commandWordWf_iff_exists_encode {v : Word} : commandWordWf v = true ↔ ∃ i, v = encode i := by
  constructor
  · intro h
    obtain ⟨i, hi⟩ := exists_decode_eq_command_of_wf h
    exact ⟨i, decode_eq_command hi⟩
  · rintro ⟨i, rfl⟩
    exact commandWordWf_iff.2 (encode_fields i)

/-! ### The obligations of 30_encoding.md 1 -/

/-- Settles O6: `decode_encode` with its converse, and the check that both directions of refusal turn on. -/
theorem decodeAndEncodeAgreeOnEveryWord : Obligations.DecodeAndEncodeAgreeOnEveryWord := by
  unfold Obligations.DecodeAndEncodeAgreeOnEveryWord
  refine fun v => ⟨fun i => decode_eq_command_iff, ?_, commandWordWf_iff_exists_encode⟩
  rw [exists_decode_eq_reject_iff, commandWordWf_iff, not_and_or, Nat.not_le]
  rfl

/-- Settles O7: each word evaluated. -/
theorem opcodeMapWords : Obligations.OpcodeMapWords := by
  unfold Obligations.OpcodeMapWords
  decide

end Sys2Proof.Machine

/-! One step as a whole (00_scope.md R10, 20_memory.md R71, 70_reset_and_hazards.md R231): it performs the oldest event and
keeps what every event keeps. -/

namespace Sys2Proof.Machine

/-! ### A step by its oldest event -/

theorem step_of_pending_nil {s : State} (h : s.pending = []) : step s = .next s := by
  rw [step, h]

theorem step_of_pending_cons {s : State} {e : PortEvent} {rest : List PortEvent} (h : s.pending = e :: rest) :
    step s = performEvent e (s.setPending rest) := by
  rw [step, h]

/-- What does not speak of the queue and what every event keeps, every step keeps. -/
theorem step_keeps {P : State → Prop} (hqueue : ∀ (s : State) (es : List PortEvent), P s → P (s.setPending es))
    (hevent : ∀ {e : PortEvent} {s t : State}, EventCases e s t → P s → P t) {s t : State} (hs : P s)
    (h : step s = .next t) : P t := by
  cases hp : s.pending with
  | nil =>
    rw [step_of_pending_nil hp] at h
    cases h
    exact hs
  | cons e rest => exact hevent (step_cases hp h) (hqueue s rest hs)

/-- The data one event returns: a byte to an 8-bit read, a word to a 32-bit read, refused or not, and else nothing. -/
theorem EventCases.replies_cases {e : PortEvent} {s t : State} (h : EventCases e s t) :
    (∃ addr v, e = .access (.read8 addr) ∧ t.replies = s.replies ++ [.byte v]) ∨
    (∃ addr v, e = .access (.read32 addr) ∧ t.replies = s.replies ++ [.word v]) ∨
    ((∀ addr, e ≠ .access (.read8 addr)) ∧ (∀ addr, e ≠ .access (.read32 addr)) ∧ t.replies = s.replies) := by
  cases h with
  | reply a he r ht hr =>
    subst he ht
    rcases hr with ⟨addr, v, rfl, rfl⟩ | ⟨addr, v, rfl, rfl⟩
    · exact .inl ⟨addr, v, rfl, rfl⟩
    · exact .inr (.inl ⟨addr, v, rfl, rfl⟩)
  | busR a he addr ht =>
    subst he
    rcases ht with ⟨rfl, ad, rfl⟩ | ⟨rfl, ad, rfl⟩
    · exact .inl ⟨ad, 0, rfl, rfl⟩
    · exact .inr (.inl ⟨ad, 0, rfl, rfl⟩)
  | busW a he hw addr ht =>
    subst he ht
    rcases hw with ⟨ad, v, rfl⟩ | ⟨ad, v, rfl⟩ <;> exact .inr (.inr ⟨nofun, nofun, rfl⟩)
  | cmd v i he hd ht =>
    subst he
    obtain ⟨_, _, hreplies, _⟩ := exec_frame ht
    exact .inr (.inr ⟨nofun, nofun, hreplies⟩)
  | led v he ht =>
    subst he ht
    obtain ⟨_, _, hreplies, _⟩ := writeLedCount_frame v s
    exact .inr (.inr ⟨nofun, nofun, hreplies⟩)
  | _ => subst e t; exact .inr (.inr ⟨nofun, nofun, rfl⟩)

/-! ### What is queued later -/

/-- Performing the oldest event and issuing more events are of no account to each other. -/
theorem step_issue {s t : State} {e : PortEvent} {rest : List PortEvent} (hp : s.pending = e :: rest)
    (h : step s = .next t) (es : List PortEvent) : step (s.issue es) = .next (t.issue es) := by
  rw [step_of_pending_cons hp] at h
  have hissue : (s.issue es).pending = e :: (rest ++ es) := congrArg (· ++ es) hp
  have hafter : t.issue es = t.setPending (rest ++ es) :=
    congrArg (fun q => t.setPending (q ++ es)) (performEvent_pending h)
  rw [step_of_pending_cons hissue, hafter]
  exact performEvent_setPending e (s.setPending rest) t (rest ++ es) h

/-- As many steps as there are events perform them all, and leave what was issued behind them. -/
theorem run_issue (q es : List PortEvent) : ∀ s : State, s.pending = q → ∃ t, Sys2Proof.core.run q.length s = .next t ∧
    t.pending = [] ∧ Sys2Proof.core.run q.length (s.issue es) = .next (t.setPending es) := by
  induction q with
  | nil =>
    intro s hp
    refine ⟨s, rfl, hp, ?_⟩
    rw [State.issue, hp]
    rfl
  | cons e rest ih =>
    intro s hp
    obtain ⟨t, ht, -⟩ := event_cases e (s.setPending rest)
    have hstep : step s = .next t := (step_of_pending_cons hp).trans ht
    obtain ⟨u, hrun, hempty, hissue⟩ := ih t (performEvent_pending ht)
    refine ⟨u, ?_, hempty, ?_⟩
    · rw [List.length_cons, run_succ Sys2Proof.core _ hstep, hrun]
    · rw [List.length_cons, run_succ Sys2Proof.core _ (step_issue hp hstep es), hissue]

/-! ### The obligations of the port's queue -/

/-- Settles O8, by inversion of the step: its queue, its parameters and its replies. -/
theorem everyStepCompletesAndTakesOneEvent : Obligations.EveryStepCompletesAndTakesOneEvent := by
  unfold Obligations.EveryStepCompletesAndTakesOneEvent
  intro s
  cases hp : s.pending with
  | nil => exact ⟨s, step_of_pending_nil hp, hp, rfl, [], (List.append_nil _).symm, rfl⟩
  | cons e rest =>
    obtain ⟨t, ht, hcases⟩ := event_cases e (s.setPending rest)
    refine ⟨t, (step_of_pending_cons hp).trans ht, performEvent_pending ht, hcases.cfg_eq, ?_⟩
    rcases hcases.replies_cases with ⟨addr, v, rfl, hr⟩ | ⟨addr, v, rfl, hr⟩ | ⟨h8, h32, hr⟩
    · exact ⟨_, hr, v, rfl⟩
    · exact ⟨_, hr, v, rfl⟩
    · refine ⟨[], hr.trans (List.append_nil _).symm, ?_⟩
      split
      next addr he => exact absurd (Option.some.inj he) (h8 addr)
      next addr he => exact absurd (Option.some.inj he) (h32 addr)
      next => rfl

/-- Settles O9, by induction on the queue (`run_issue`). -/
theorem earlierAccessesIgnoreLaterOnes : Obligations.EarlierAccessesIgnoreLaterOnes := by
  unfold Obligations.EarlierAccessesIgnoreLaterOnes
  exact fun s es => run_issue s.pending es s rfl

/-- Settles O2: the step of a reset event, with what `applyReset` keeps. -/
theorem resetEventKeepsParametersAndHostSide : Obligations.ResetEventKeepsParametersAndHostSide := by
  unfold Obligations.ResetEventKeepsParametersAndHostSide
  exact fun s rest hp => step_reset hp

/-- Settles O3: the two cases of a step. -/
theorem stepPerformsTheOldestEvent : Obligations.StepPerformsTheOldestEvent := by
  unfold Obligations.StepPerformsTheOldestEvent
  exact ⟨fun s => step_of_pending_nil, fun s a rest => step_of_pending_cons⟩

/-- Settles O4: a step on a CMD write performs its word, and a word that decodes performs its command. -/
theorem stepRunsTheDecodedCommand : Obligations.StepRunsTheDecodedCommand := by
  unfold Obligations.StepRunsTheDecodedCommand
  exact fun s v i rest hp hd => (step_cmdWrite hp).trans (performCommand_of_command hd _)

end Sys2Proof.Machine

/-! What every step keeps of the memories and of the frame (10_state.md R24, R30, R31, 43_frame_packer.md R172, R175): one
inversion of an event by what it does to the two memories, and the two invariants from it. -/

namespace Sys2Proof.Machine

/-! ### What one event does to the two memories -/

/-- Every way an event takes N, the pixels, the wire buffer and FRAME_VALID from `s` to `t`. -/
inductive MemoryCases (e : PortEvent) (s t : State) : Prop
  | reset (he : e = .reset) (ht : t = applyReset s)
  | cleared (v : Word) (he : e = .access (.write32 0x08#32 v)) (hne : v ≠ s.ledCount) (hle : v.toNat ≤ s.cfg.nmax.val)
      (hled : t.ledCount = v) (hpix : t.pix = []) (hwb : t.wb = []) (hvalid : t.frameValid = false)
  | pixel (i : Nat) (hi : i < s.count) (v : Word) (ht : t = writePixel i v s)
  | limit (he : e = .access (.write32 0x00#32 (encode .limit))) (ht : t = limitBuffer s)
  | render (he : e = .access (.write32 0x00#32 (encode .render))) (ht : t = renderBuffer s)
  | frame (he : e = .access (.write32 0x00#32 (encode .frame))) (ht : t = limitBuffer (renderBuffer s))
  | kept (hled : t.ledCount = s.ledCount) (hpix : t.pix = s.pix) (hwb : t.wb = s.wb)
      (hvalid : t.frameValid = s.frameValid)

/-- A LED_COUNT write clears the memories on a change of N, and else keeps them (R24). -/
theorem writeLedCount_memoryCases (v : Word) (s : State) :
    MemoryCases (.access (.write32 0x08#32 v)) s (writeLedCount v s) := by
  rcases writeLedCount_cases v s with ⟨hled, hpix, hwb, hflags⟩ | ⟨hled, hne, hle, hpix, hwb, -⟩
  · exact .kept hled hpix hwb (hflags 5 (by decide) (by decide))
  · rcases writeLedCount_frameKept v s with ⟨_, hvalid, _⟩ | ⟨hsame, _⟩
    · exact .cleared v rfl hne hle hled hpix hwb hvalid
    · exact absurd (hled.symm.trans hsame) hne

/-- A command writes the memories by LIMIT, RENDER and FRAME only (30_encoding.md R94). -/
theorem exec_memoryCases {i : Instr} {s t : State} (h : exec i s = .next t) :
    MemoryCases (.access (.write32 0x00#32 (encode i))) s t := by
  rcases exec_cases i s with ⟨_, h1⟩ | ⟨e, h1, _⟩ | ⟨_, _, h1⟩ | ⟨_, _, _, _, h1⟩ | ⟨rfl, h1⟩ | ⟨rfl, h1⟩ | ⟨rfl, h1⟩ <;>
    rw [h1] at h <;> cases h
  · exact .kept rfl rfl rfl rfl
  · exact .kept rfl rfl rfl (raise_frameKept e s).frameValid
  · exact .kept rfl rfl rfl rfl
  · exact .kept rfl rfl rfl rfl
  · exact .limit rfl rfl
  · exact .render rfl rfl
  · exact .frame rfl rfl

theorem EventCases.memoryCases {e : PortEvent} {s t : State} (h : EventCases e s t) : MemoryCases e s t := by
  cases h with
  | reset he ht => exact .reset he ht
  | busR a he addr ht =>
    have hvalid := (raise_frameKept (.busError addr) s).frameValid
    rcases ht with ⟨rfl, _⟩ | ⟨rfl, _⟩ <;> exact .kept rfl rfl rfl hvalid
  | busW a he hw addr ht => subst ht; exact .kept rfl rfl rfl (raise_frameKept _ s).frameValid
  | pix i hi ad v he hreg ht => exact .pixel i hi v ht
  | cmd v i he hd ht =>
    obtain rfl := decode_eq_command hd
    subst he
    exact exec_memoryCases ht
  | ill v he r hr ht => subst ht; exact .kept rfl rfl rfl (raise_frameKept _ s).frameValid
  | status v he ht => subst ht; exact .kept rfl rfl rfl (clearErrors_frameKept v s).frameValid
  | led v he ht => subst he ht; exact writeLedCount_memoryCases v s
  | _ => subst t; exact .kept rfl rfl rfl rfl

/-! ### The memories' invariant -/

theorem wireByte_congr {s t : State} (h : t.wb = s.wb) (j : Nat) : t.wireByte j = s.wireByte j :=
  congrArg (fun m => Memory.read 0 m j) h

/-- The invariant speaks of NMAX, N and the two memories only. -/
theorem State.MemoryInv.of_eq {s t : State} (h : s.MemoryInv) (hcfg : t.cfg = s.cfg) (hled : t.ledCount = s.ledCount)
    (hpix : t.pix = s.pix) (hwb : t.wb = s.wb) : t.MemoryInv := by
  have hcount : t.count = s.count := congrArg BitVec.toNat hled
  have hpixel (i : Nat) : t.pixel i = s.pixel i := by rw [State.pixel, State.pixel, hpix]
  have hwire := wireByte_congr hwb
  obtain ⟨pix_wf, wb_wf, count_le, pix_above, start_zero, filler_zero⟩ := h
  constructor
  · rwa [hpix]
  · rwa [hwb]
  · rwa [hcount, hcfg]
  · exact fun i hi => (hpixel i).trans (pix_above i (hcount ▸ hi))
  · exact fun j hj => (hwire j).trans (start_zero j hj)
  · exact fun j hj => (hwire j).trans (filler_zero j (hcount ▸ hj))

/-- Two empty memories meet it for any N up to NMAX. -/
theorem memoryInv_of_empty {t : State} (hle : t.count ≤ t.cfg.nmax.val) (hpix : t.pix = []) (hwb : t.wb = []) :
    t.MemoryInv where
  pix_wf := by rw [hpix]; rfl
  wb_wf := by rw [hwb]; rfl
  count_le := hle
  pix_above i _ := by rw [State.pixel, hpix]; rfl
  start_zero j _ := by rw [State.wireByte, hwb]; rfl
  filler_zero j _ := by rw [State.wireByte, hwb]; rfl

/-- A pixel write below N keeps it: no pixel at or above N is written. -/
theorem State.MemoryInv.writePixel {s : State} (h : s.MemoryInv) {i : Nat} (hi : i < s.count) (v : Word) :
    (writePixel i v s).MemoryInv where
  pix_wf := Memory.wf_write i _ h.pix_wf
  wb_wf := h.wb_wf
  count_le := h.count_le
  pix_above k hk := by
    have hcount : s.count ≤ k := hk
    rw [writePixel_pixel h.pix_wf, if_neg (by omega)]
    exact h.pix_above k hcount
  start_zero := h.start_zero
  filler_zero := h.filler_zero

/-- LIMIT keeps it: the start frame and the filler are no channel bytes. -/
theorem State.MemoryInv.limitBuffer {s : State} (h : s.MemoryInv) : (limitBuffer s).MemoryInv := by
  have hwire (j : Nat) (hj : j < 4 ∨ 4 + 4 * s.count ≤ j) : (Machine.limitBuffer s).wireByte j = s.wireByte j :=
    limitBuffer_other s h.wb_wf j (by omega)
  obtain ⟨pix_wf, wb_wf, count_le, pix_above, start_zero, filler_zero⟩ := h
  have hwf := limitBuffer_wf s wb_wf
  rw [limitBuffer_eq_with] at hwf hwire ⊢
  exact ⟨pix_wf, hwf, count_le, pix_above, fun j hj => (hwire j (.inl hj)).trans (start_zero j hj),
    fun j hj => (hwire j (.inr hj)).trans (filler_zero j hj)⟩

/-- RENDER keeps it: it packs zeros around the records. -/
theorem State.MemoryInv.renderBuffer {s : State} (h : s.MemoryInv) : (renderBuffer s).MemoryInv where
  pix_wf := h.pix_wf
  wb_wf := renderBuffer_wf s
  count_le := h.count_le
  pix_above := h.pix_above
  start_zero j hj := renderBuffer_zero s j (.inl hj)
  filler_zero j hj := renderBuffer_zero s j (.inr hj)

/-- Every event keeps the memories' invariant. -/
theorem EventCases.keeps_memoryInv {e : PortEvent} {s t : State} (h : EventCases e s t) (hs : s.MemoryInv) :
    t.MemoryInv := by
  have hcfg := h.cfg_eq
  cases h.memoryCases with
  | reset he ht => subst ht; exact memoryInv_of_empty (Nat.zero_le _) rfl rfl
  | cleared v he hne hle hled hpix hwb hvalid =>
    refine memoryInv_of_empty ?_ hpix hwb
    rwa [State.count, hled, hcfg]
  | pixel i hi v ht => subst ht; exact hs.writePixel hi v
  | limit he ht => subst ht; exact hs.limitBuffer
  | render he ht => subst ht; exact hs.renderBuffer
  | frame he ht => subst ht; exact hs.renderBuffer.limitBuffer
  | kept hled hpix hwb hvalid => exact hs.of_eq hcfg hled hpix hwb

/-! ### The frame's invariant -/

/-- The brightness byte of a rendered pixel is one of the four (30_encoding.md R95): the remapper's values are in the
encoder's domain. -/
theorem renderRecord_brightness_mem (c : Color) :
    (renderRecord c).brightness ∈ [0xE1#8, 0xE2#8, 0xE4#8, 0xFF#8] := by
  have hle (x : Byte) : remap (expand x) ≤ maxOut := remap_le_maxOut (expand_le x)
  obtain ⟨hmem, -, -⟩ := multiplier_spec (hle c.r) (hle c.g) (hle c.b)
  exact brightnessByte_mem hmem

/-- LIMIT keeps every brightness byte (42_power_limiter.md R152). -/
theorem limitBuffer_brightness {s : State} (hw : Memory.wf 0 s.wb = true) (i : Nat) :
    ((limitBuffer s).record i).brightness = (s.record i).brightness :=
  limitBuffer_other s hw _ (by omega)

/-- A buffer of which FRAME_VALID is 0 has the invariant when it is zero. -/
theorem frameInv_of_zero {t : State} (hvalid : t.frameValid = false) (hzero : ∀ j, t.wireByte j = 0) : t.FrameInv where
  invalid_zero _ := hzero
  valid_brightness h := absurd (hvalid.symm.trans h) Bool.false_ne_true

/-- The invariant speaks of N, the wire buffer and FRAME_VALID only. -/
theorem State.FrameInv.of_eq {s t : State} (h : s.FrameInv) (hled : t.ledCount = s.ledCount) (hwb : t.wb = s.wb)
    (hvalid : t.frameValid = s.frameValid) : t.FrameInv := by
  have hcount : t.count = s.count := congrArg BitVec.toNat hled
  have hwire := wireByte_congr hwb
  constructor
  · exact fun hv j => (hwire j).trans (h.invalid_zero (hvalid.symm.trans hv) j)
  · intro hv i hi
    rw [State.record, hwire]
    exact h.valid_brightness (hvalid.symm.trans hv) i (hcount ▸ hi)

/-- LIMIT keeps it: a zero byte stays zero, and no brightness byte is a channel byte. -/
theorem State.FrameInv.limitBuffer {s : State} (h : s.FrameInv) (hw : Memory.wf 0 s.wb = true) :
    (limitBuffer s).FrameInv := by
  have hkept := limitBuffer_frameKept s
  constructor
  · exact fun hv j => hkept.wireByte_eq_zero hw (h.invalid_zero (hkept.frameValid.symm.trans hv) j)
  · intro hv i hi
    rw [limitBuffer_brightness hw]
    exact h.valid_brightness (hkept.frameValid.symm.trans hv) i (limitBuffer_count s ▸ hi)

/-- RENDER makes it hold, whatever the buffer was. -/
theorem renderBuffer_frameInv (s : State) : (renderBuffer s).FrameInv where
  invalid_zero hv := absurd ((renderBuffer_frameValid s).symm.trans hv) (by decide)
  valid_brightness _ i hi := by
    rw [renderBuffer_record s i hi]
    exact renderRecord_brightness_mem (s.pixel i)

/-- Every event keeps the frame's invariant in a state with a canonical wire buffer. -/
theorem EventCases.keeps_frameInv {e : PortEvent} {s t : State} (h : EventCases e s t) (hw : Memory.wf 0 s.wb = true)
    (hs : s.FrameInv) : t.FrameInv := by
  cases h.memoryCases with
  | reset he ht => subst ht; exact frameInv_of_zero BitVec.getLsbD_zero fun _ => rfl
  | cleared v he hne hle hled hpix hwb hvalid =>
    exact frameInv_of_zero hvalid fun j => by rw [State.wireByte, hwb]; rfl
  | pixel i hi v ht => subst ht; exact hs.of_eq rfl rfl rfl
  | limit he ht => subst ht; exact hs.limitBuffer hw
  | render he ht => subst ht; exact renderBuffer_frameInv s
  | frame he ht => subst ht; exact (renderBuffer_frameInv s).limitBuffer (renderBuffer_wf s)
  | kept hled hpix hwb hvalid => exact hs.of_eq hled hwb hvalid

/-! ### The obligations -/

/-- Settles O45: every event keeps the invariant (`EventCases.keeps_memoryInv`), which does not speak of the queue. -/
theorem stepKeepsTheMemoryInvariant : Obligations.StepKeepsTheMemoryInvariant := by
  unfold Obligations.StepKeepsTheMemoryInvariant
  exact fun s t hs h => step_keeps (P := State.MemoryInv) (fun s es hs => hs.of_eq rfl rfl rfl rfl)
    EventCases.keeps_memoryInv hs h

/-- Settles O47: with the memories' invariant, every event keeps the frame's (`EventCases.keeps_frameInv`). -/
theorem stepKeepsTheFrameInvariant : Obligations.StepKeepsTheFrameInvariant := by
  unfold Obligations.StepKeepsTheFrameInvariant
  intro s t hmem hframe h
  refine (step_keeps (P := fun s => s.MemoryInv ∧ s.FrameInv) ?_ ?_ ⟨hmem, hframe⟩ h).2
  · exact fun s es ⟨hm, hf⟩ => ⟨hm.of_eq rfl rfl rfl rfl, hf.of_eq rfl rfl rfl⟩
  · exact fun hc ⟨hm, hf⟩ => ⟨hc.keeps_memoryInv hm, hc.keeps_frameInv hm.wb_wf hf⟩

end Sys2Proof.Machine

/-! What every step keeps of STATUS (10_state.md R23, 60_exceptions.md R200, R205, R207), and that the state after reset
meets the invariants (70_reset_and_hazards.md R230). -/

namespace Sys2Proof.Machine

/-! ### Words that agree outside LIMITED and FRAME_VALID -/

theorem causeField_congr {w w' : Word} (h : ∀ k, 8 ≤ k → k ≤ 11 → w'.getLsbD k = w.getLsbD k) :
    causeField w' = causeField w := by
  apply BitVec.eq_of_getLsbD_eq
  intro k hk
  have hbit := h (k + 8) (by omega) (by omega)
  rwa [getLsbD_cause w' _ (by omega) (by omega), getLsbD_cause w _ (by omega) (by omega), Nat.add_sub_cancel] at hbit

theorem noErrorBits_congr {w w' : Word} (h : ∀ k < 3, w'.getLsbD k = w.getLsbD k) : noErrorBits w' = noErrorBits w := by
  rw [noErrorBits, noErrorBits, h _ (by decide), h _ (by decide), h _ (by decide)]

/-! ### STATUS after an error (R201 to R203) -/

theorem causeField_statusAfterError (x : BlockError) (w : Word) : causeField (statusAfterError x w) = x.causeCode :=
  causeField_putCause _ _

/-- The code of an error is its bit's number and one more (R200). -/
theorem causeCode_toNat (x : BlockError) : x.causeCode.toNat = x.statusBit + 1 := by
  cases x <;> rfl

theorem noErrorBits_statusAfterError (x : BlockError) (w : Word) : ¬ noErrorBits (statusAfterError x w) = true := by
  have hbit := statusBit_lt x
  rw [noErrorBits_iff]
  intro hnone
  have hset := statusAfterError_getLsbD x w x.statusBit (by omega)
  rw [hnone _ hbit, if_pos rfl] at hset
  exact Bool.false_ne_true hset

/-! ### The invariant of STATUS -/

/-- `State.StatusInv` as a property of the word, whose reserved bits are those below 32. -/
structure StatusLegal (w : Word) : Prop where
  reserved : ∀ k < 32, k = 3 ∨ k = 6 ∨ k = 7 ∨ 12 ≤ k → w.getLsbD k = false
  cause_le : (causeField w).toNat ≤ 3
  cause_zero : causeField w = 0 ↔ noErrorBits w = true

theorem statusInv_iff {s : State} : s.StatusInv ↔ StatusLegal s.status := by
  refine ⟨fun ⟨hres, hle, hzero⟩ => ⟨fun k _ => hres k, hle, hzero⟩, fun ⟨hres, hle, hzero⟩ => ⟨fun k hk => ?_, hle, hzero⟩⟩
  rcases Nat.lt_or_ge k 32 with hlt | hge
  · exact hres k hlt hk
  · exact BitVec.getLsbD_of_ge _ _ hge

theorem statusLegal_zero : StatusLegal 0 :=
  ⟨fun _ _ _ => BitVec.getLsbD_zero, by decide, by decide⟩

/-- An error sets its bit and makes CAUSE its code, which is not 0. -/
theorem StatusLegal.afterError {w : Word} (h : StatusLegal w) (x : BlockError) : StatusLegal (statusAfterError x w) := by
  have hbit := statusBit_lt x
  have hcode := causeCode_toNat x
  constructor
  · intro k hk hres
    rw [statusAfterError_getLsbD x w k hk, if_neg (by omega), if_neg (by omega)]
    exact h.reserved k hk hres
  · rw [causeField_statusAfterError]
    omega
  · refine iff_of_false (fun hzero => ?_) (noErrorBits_statusAfterError x w)
    rw [causeField_statusAfterError] at hzero
    rw [hzero] at hcode
    exact absurd hcode (Nat.succ_ne_zero _).symm

/-- A host write clears CAUSE when it leaves no error bit; when it leaves one there was one before. -/
theorem StatusLegal.afterWrite {w : Word} (h : StatusLegal w) (v : Word) : StatusLegal (statusAfterWrite v w) := by
  obtain ⟨herror, hother⟩ := statusAfterWrite_bits v w
  have hcause := statusAfterWrite_cause v w
  constructor
  · intro k hk hres
    rw [hother k hk (by omega) (by omega)]
    exact h.reserved k hk hres
  · rw [hcause]
    split_ifs
    · exact Nat.zero_le 3
    · exact h.cause_le
  · rw [hcause]
    split_ifs with hnone
    · exact iff_of_true rfl hnone
    · refine iff_of_false (fun hzero => hnone ?_) hnone
      have hbefore := (noErrorBits_iff w).1 (h.cause_zero.1 hzero)
      exact (noErrorBits_iff _).2 fun k hk => by rw [herror k hk, hbefore k hk, Bool.false_and]

/-- LIMITED and FRAME_VALID take no part in it. -/
theorem StatusLegal.of_flags {w w' : Word} (h : StatusLegal w)
    (hbits : ∀ k, k ≠ 4 → k ≠ 5 → w'.getLsbD k = w.getLsbD k) : StatusLegal w' := by
  have hcause : causeField w' = causeField w := causeField_congr fun k _ _ => hbits k (by omega) (by omega)
  have hnone : noErrorBits w' = noErrorBits w := noErrorBits_congr fun k _ => hbits k (by omega) (by omega)
  constructor
  · intro k hk hres
    rw [hbits k (by omega) (by omega)]
    exact h.reserved k hk hres
  · rw [hcause]
    exact h.cause_le
  · rw [hcause, hnone]
    exact h.cause_zero

/-- Every event keeps it: what it makes of STATUS is one of five things. -/
theorem EventCases.keeps_statusLegal {e : PortEvent} {s t : State} (h : EventCases e s t) (hs : StatusLegal s.status) :
    StatusLegal t.status := by
  cases status_cases h with
  | reset he ht => rw [ht]; exact statusLegal_zero
  | same ht => rw [ht]; exact hs
  | err x ht => rw [ht]; exact hs.afterError x
  | wr v he ht => rw [ht]; exact hs.afterWrite v
  | flags _ _ w hw ht => rw [ht]; exact hs.of_flags hw

/-! ### One error a step (R205) -/

/-- What one event records: one error whole, or no error bit, and CAUSE kept or made 0. -/
theorem StatusCases.records_at_most_one_error {e : PortEvent} {s t : State} (h : StatusCases e s t) :
    (∃ k < 3, ErrorRecorded k (k + 1) s.status t.status) ∨
    ((∀ k < 3, t.status.getLsbD k = true → s.status.getLsbD k = true) ∧ (t.cause = s.cause ∨ t.cause = 0#4)) := by
  unfold State.cause
  cases h with
  | reset he ht =>
    rw [ht]
    exact .inr ⟨fun k _ hset => absurd (BitVec.getLsbD_zero.symm.trans hset) Bool.false_ne_true, .inr rfl⟩
  | same ht =>
    rw [ht]
    exact .inr ⟨fun _ _ hset => hset, .inl rfl⟩
  | err x ht =>
    have hrecorded := raise_recorded x s
    rw [causeCode_toNat] at hrecorded
    rw [ht]
    exact .inl ⟨x.statusBit, statusBit_lt x, hrecorded⟩
  | wr v he ht =>
    obtain ⟨herror, -⟩ := statusAfterWrite_bits v s.status
    rw [ht, statusAfterWrite_cause]
    refine .inr ⟨fun k hk hset => ?_, ?_⟩
    · rw [herror k hk, Bool.and_eq_true] at hset
      exact hset.1
    · split_ifs
      · exact .inr rfl
      · exact .inl rfl
  | flags _ _ w hw ht =>
    rw [ht]
    refine .inr ⟨fun k hk hset => ?_, .inl (causeField_congr fun k _ _ => hw k (by omega) (by omega))⟩
    exact (hw k (by omega) (by omega)).symm.trans hset

/-! ### The obligations -/

/-- Settles O46: every event keeps the word legal (`EventCases.keeps_statusLegal`). -/
theorem stepKeepsTheStatusInvariant : Obligations.StepKeepsTheStatusInvariant := by
  unfold Obligations.StepKeepsTheStatusInvariant
  intro s t hs h
  exact statusInv_iff.2 (step_keeps (P := fun s => StatusLegal s.status) (fun _ _ hs => hs)
    EventCases.keeps_statusLegal (statusInv_iff.1 hs) h)

/-- Settles O36, by inversion of the step's STATUS (`StatusCases.records_at_most_one_error`). -/
theorem aStepRecordsAtMostOneError : Obligations.AStepRecordsAtMostOneError := by
  unfold Obligations.AStepRecordsAtMostOneError
  intro s t h
  cases hp : s.pending with
  | nil =>
    rw [step_of_pending_nil hp] at h
    cases h
    exact .inr ⟨fun _ _ hset => hset, .inl rfl⟩
  | cons e rest => exact (status_cases (step_cases hp h)).records_at_most_one_error

/-- Settles O48: STATUS is 0, both memories are empty, and N is 0. -/
theorem resetMeetsTheInvariants : Obligations.ResetMeetsTheInvariants := by
  unfold Obligations.ResetMeetsTheInvariants
  exact fun c => ⟨memoryInv_of_empty (Nat.zero_le _) rfl rfl, statusInv_iff.2 statusLegal_zero,
    frameInv_of_zero BitVec.getLsbD_zero fun _ => rfl⟩

end Sys2Proof.Machine

/-! Reads of the port (20_memory.md R62, R66, R67, R70): what each register read returns, where the windows lie, and that an
admitted read has no side effect. -/

namespace Sys2Proof.Machine

/-! ### A read by what the address map answers -/

theorem perform_read8_of_some {addr : Word} {s : State} {v : Byte} (h : read8Value addr s = some v) :
    perform (.read8 addr) s = .next (s.reply (.byte v)) := by
  simp only [perform, h]

theorem perform_read8_of_none {addr : Word} {s : State} (h : read8Value addr s = none) :
    perform (.read8 addr) s = .next ((raise (.busError addr) s).reply (.byte 0)) := by
  simp only [perform, h]

theorem perform_read32_of_some {addr : Word} {s : State} {v : Word} (h : read32Value addr s = some v) :
    perform (.read32 addr) s = .next (s.reply (.word v)) := by
  simp only [perform, h]

theorem perform_read32_of_none {addr : Word} {s : State} (h : read32Value addr s = none) :
    perform (.read32 addr) s = .next ((raise (.busError addr) s).reply (.word 0)) := by
  simp only [perform, h]

/-- The address map answers every admitted 8-bit read (R66). -/
theorem exists_read8Value_of_admitted {addr : Word} {s : State} (h : (Access.read8 addr).Admitted s.count) :
    ∃ v, read8Value addr s = some v := by
  obtain ⟨j, hj, ha⟩ := h
  exact ⟨s.wireByte j, by rw [read8Value, wireByteAt_eq_some.2 ⟨hj, ha⟩]; rfl⟩

/-- The address map answers every admitted 32-bit read (R62, R65, R66). -/
theorem exists_read32Value_of_admitted {addr : Word} {s : State} (h : (Access.read32 addr).Admitted s.count) :
    ∃ v, read32Value addr s = some v := by
  unfold read32Value
  cases hr : regAt addr with
  | some r => exact ⟨_, rfl⟩
  | none =>
    cases hp : pixelAt s.count addr with
    | some i => exact ⟨_, rfl⟩
    | none =>
      rcases h with ⟨r, ha⟩ | ⟨i, hi, ha⟩ | ⟨j, h4, hj, ha⟩
      · exact absurd ha (regAt_eq_none.1 hr r)
      · exact absurd ha (pixelAt_eq_none.1 hp i hi)
      · exact ⟨s.wireWord j, by rw [wireWordAt_eq_some.2 ⟨h4, hj, ha⟩]; rfl⟩

theorem readReg_reply (r : Reg) (s : State) (x : Reply) : readReg r (s.reply x) = readReg r s := by
  cases r <;> rfl

/-- What has been returned before is of no account to a read. -/
theorem read32Value_reply (addr : Word) (s : State) (x : Reply) : read32Value addr (s.reply x) = read32Value addr s := by
  unfold read32Value
  simp only [readReg_reply]
  rfl

/-- A datum that is returned again by the same read, wherever it is returned once, has no side effect. -/
theorem readsAs_again {a : Access} {s : State} {r : Reply} (h : a.ReadsAs s r) (hagain : a.ReadsAs (s.reply r) r) :
    ∃ r, a.ReadsAs s r ∧ ∀ t, perform a s = .next t → a.ReadsAs t r := by
  refine ⟨r, h, fun t ht => ?_⟩
  obtain rfl : s.reply r = t := Host.Outcome.next.inj (h.symm.trans ht)
  exact hagain

/-! ### The registers' window (R62) -/

theorem offset_toNat_mod_four (r : Reg) : r.offset.toNat % 4 = 0 := by
  cases r <;> rfl

/-- The ten registers take every multiple of 4 up to 0x24 (10_state.md R21). -/
theorem exists_offset_toNat_eq {n : Nat} (h4 : n % 4 = 0) (h : n ≤ 0x24) : ∃ r : Reg, r.offset.toNat = n := by
  have hall : ∀ k < 10, ∃ r ∈ allRegs, r.offset.toNat = 4 * k := by decide
  obtain ⟨r, -, hr⟩ := hall (n / 4) (by omega)
  exact ⟨r, by omega⟩

theorem exists_regAt_iff {addr : Word} : (∃ r, regAt addr = some r) ↔ addr.toNat % 4 = 0 ∧ addr.toNat ≤ 0x24 := by
  constructor
  · rintro ⟨r, hr⟩
    rw [regAt_eq_some.1 hr]
    exact ⟨offset_toNat_mod_four r, offset_toNat_le r⟩
  · rintro ⟨h4, hle⟩
    obtain ⟨r, hr⟩ := exists_offset_toNat_eq h4 hle
    exact ⟨r, regAt_eq_some.2 (BitVec.eq_of_toNat_eq hr.symm)⟩

/-! ### The obligations of 20_memory.md -/

/-- Settles O44: the address map answers the read, and it does not look at what was returned before. -/
theorem admittedReadsHaveNoSideEffect : Obligations.AdmittedReadsHaveNoSideEffect := by
  unfold Obligations.AdmittedReadsHaveNoSideEffect
  intro s a hadm hread
  cases a with
  | read8 addr =>
    obtain ⟨v, hv⟩ := exists_read8Value_of_admitted hadm
    exact readsAs_again (perform_read8_of_some hv) (perform_read8_of_some (s := s.reply (.byte v)) hv)
  | read32 addr =>
    obtain ⟨v, hv⟩ := exists_read32Value_of_admitted hadm
    exact readsAs_again (perform_read32_of_some hv) (perform_read32_of_some ((read32Value_reply addr s _).trans hv))
  | write8 addr v => exact hadm.elim
  | write32 addr v => exact absurd rfl (hread addr v)

/-- Settles O28, by the one rule of a register read (`readsAs_reg`). -/
theorem registerReadsReturnTheirValues : Obligations.RegisterReadsReturnTheirValues := by
  unfold Obligations.RegisterReadsReturnTheirValues
  intro s
  have hwiden : s.curPerCh.setWidth 32 = 0#16 ++ s.curPerCh := BitVec.setWidth_eq_append (by decide)
  rw [← hwiden]
  exact ⟨readsAs_reg .cmd s, readsAs_reg .status s, readsAs_reg .ledCount s, readsAs_reg .curPerCh s,
    readsAs_reg .budget s, readsAs_reg .arg0 s, readsAs_reg .arg1 s, readsAs_reg .arg2 s, readsAs_reg .res0 s,
    readsAs_reg .bufLen s⟩

/-- Settles O39: each window as an equivalence, and then by the ends of the windows for N up to 65535. -/
theorem windowsNeverOverlap : Obligations.WindowsNeverOverlap := by
  unfold Obligations.WindowsNeverOverlap
  refine ⟨fun n addr => ⟨exists_regAt_iff, fun i => pixelAt_eq_some, fun j => wireByteAt_eq_some,
    fun j => wireWordAt_eq_some⟩, fun n addr hn => ⟨fun r hr => ?_, fun i hi => ?_, fun j hj => ?_, fun j hj => ?_⟩,
    by decide, by decide, by decide, by decide, by decide⟩
  · obtain ⟨-, hle⟩ := exists_regAt_iff.1 ⟨r, hr⟩
    exact ⟨pixelAt_eq_none.2 fun i _ => by omega, wireByteAt_eq_none.2 fun j _ => by omega,
      wireWordAt_eq_none.2 fun j _ _ => by omega⟩
  · obtain ⟨hlt, ha⟩ := pixelAt_eq_some.1 hi
    exact ⟨wireByteAt_eq_none.2 fun j _ => by omega, wireWordAt_eq_none.2 fun j _ _ => by omega, by omega⟩
  · have hlen := bufferLen_le hn
    obtain ⟨hlt, ha⟩ := wireByteAt_eq_some.1 hj
    omega
  · have hlen := bufferLen_le hn
    obtain ⟨-, hlt, ha⟩ := wireWordAt_eq_some.1 hj
    omega

end Sys2Proof.Machine

/-! The host's transmission duty (70_reset_and_hazards.md R243): a queue of events that rewrite nothing leaves the wire buffer
and N alone to its end. -/

namespace Sys2Proof.Machine

/-! ### One quiet event -/

theorem rewritesWire_cmd (nmax : Nat) (n v : Word) : PortEvent.rewritesWire nmax n (.access (.write32 Reg.cmd.offset v)) =
    (decode v = .command .render || decode v = .command .frame || decode v = .command .limit) := by
  simp only [PortEvent.rewritesWire, regAt_offset]

theorem rewritesWire_ledCount (nmax : Nat) (n v : Word) :
    PortEvent.rewritesWire nmax n (.access (.write32 Reg.ledCount.offset v)) = (v.toNat ≤ nmax && v ≠ n) := by
  simp only [PortEvent.rewritesWire, regAt_offset]

/-- An event that may not rewrite the wire buffer leaves it and N. -/
theorem EventCases.wb_eq_of_quiet {e : PortEvent} {s t : State} (h : EventCases e s t)
    (hquiet : e.rewritesWire s.cfg.nmax.val s.ledCount = false) : t.wb = s.wb ∧ t.ledCount = s.ledCount := by
  have hcmd (i : Instr) (hi : i = .render ∨ i = .frame ∨ i = .limit) :
      e ≠ .access (.write32 Reg.cmd.offset (encode i)) := by
    rintro rfl
    rw [rewritesWire_cmd, decode_encode] at hquiet
    rcases hi with rfl | rfl | rfl <;> exact absurd hquiet (by decide)
  cases h.memoryCases with
  | reset he ht => subst he; cases hquiet
  | cleared v he hne hle hled hpix hwb hvalid =>
    obtain rfl : e = .access (.write32 Reg.ledCount.offset v) := he
    rw [rewritesWire_ledCount, decide_eq_true hle, decide_eq_true hne] at hquiet
    exact absurd hquiet (by decide)
  | pixel i hi v ht => subst ht; exact ⟨rfl, rfl⟩
  | limit he ht => exact absurd he (hcmd .limit (.inr (.inr rfl)))
  | render he ht => exact absurd he (hcmd .render (.inl rfl))
  | frame he ht => exact absurd he (hcmd .frame (.inr (.inl rfl)))
  | kept hled hpix hwb hvalid => exact ⟨hwb, hled⟩

/-! ### A quiet queue -/

/-- Along a quiet queue every step takes one event and leaves the wire buffer and N. -/
theorem run_of_quiet (k : Nat) : ∀ {s : State}, transmissionQuiet s.cfg.nmax.val s.ledCount s.pending = true →
    k ≤ s.pending.length → ∃ t, Sys2Proof.core.run k s = .next t ∧ t.pending = s.pending.drop k ∧ t.wb = s.wb ∧
      t.ledCount = s.ledCount := by
  induction k with
  | zero => exact fun {s} _ _ => ⟨s, rfl, rfl, rfl, rfl⟩
  | succ k ih =>
    intro s hquiet hk
    cases hp : s.pending with
    | nil => rw [hp] at hk; exact absurd hk (Nat.not_succ_le_zero k)
    | cons e rest =>
      rw [hp, transmissionQuiet_cons] at hquiet
      obtain ⟨he, hrest⟩ := hquiet
      obtain ⟨t, ht, hcases⟩ := event_cases e (s.setPending rest)
      obtain ⟨hwb, hled⟩ := hcases.wb_eq_of_quiet he
      have hcfg := hcases.cfg_eq
      have hpending : t.pending = rest := performEvent_pending ht
      simp only [setPending_wb, setPending_ledCount, setPending_cfg] at hwb hled hcfg
      obtain ⟨u, hrun, hdrop, huwb, huled⟩ := ih (s := t) (by rwa [hcfg, hled, hpending])
        (by rw [hp] at hk; rw [hpending]; exact Nat.le_of_succ_le_succ hk)
      refine ⟨u, ?_, ?_, huwb.trans hwb, huled.trans hled⟩
      · rw [run_succ Sys2Proof.core k ((step_of_pending_cons hp).trans ht), hrun]
      · rw [hdrop, hpending, List.drop_succ_cons]

/-! ### The obligation -/

/-- Settles O49, by induction on the queue (`run_of_quiet`); a read that comes next sees the buffer of the beginning. -/
theorem quietTransmissionSeesOneFrame : Obligations.QuietTransmissionSeesOneFrame := by
  unfold Obligations.QuietTransmissionSeesOneFrame
  intro s hquiet k hk
  obtain ⟨t, hrun, hpending, hwb, hled⟩ := run_of_quiet k hquiet hk
  have hcount : t.count = s.count := congrArg BitVec.toNat hled
  have hwire := wireByte_congr hwb
  refine ⟨t, hrun, hpending, hwb, hled, fun addr rest j hp hj ha => ?_, fun addr rest j hn hp h4 hj ha => ?_⟩
  · rw [step_of_pending_cons hp, ← hwire]
    exact readsAs_wireByte (s := t.setPending rest) (hcount ▸ hj) ha
  · rw [step_of_pending_cons hp]
    simp only [← hwire]
    exact readsAs_wireWord (s := t.setPending rest) (hcount ▸ hn) h4 (hcount ▸ hj) ha

end Sys2Proof.Machine

/-! The encoder's multiplier by the largest lightness (41_encoder.md R133), LIMIT on two buffers with the same channel bytes
(42_power_limiter.md R150 to R152), and what RENDER and FRAME leave (43_frame_packer.md R173, R176, R177). -/

namespace Sys2Proof.Machine

/-! ### The multiplier (R130, R133) -/

/-- The search of R130 written out: the first of 1, 2 and 4 that fits, else 31. -/
theorem multiplier_eq_ite (r g b : Nat) : multiplier r g b =
    if fits r g b 1 then 1 else if fits r g b 2 then 2 else if fits r g b 4 then 4 else 31 := by
  unfold multiplier multipliers
  split_ifs with h1 h2 h4
  · rw [List.find?_cons_of_pos h1]; rfl
  · rw [List.find?_cons_of_neg h1, List.find?_cons_of_pos h2]; rfl
  · rw [List.find?_cons_of_neg h1, List.find?_cons_of_neg h2, List.find?_cons_of_pos h4]; rfl
  · rw [List.find?_cons_of_neg h1, List.find?_cons_of_neg h2, List.find?_cons_of_neg h4, List.find?_cons]
    split <;> rfl

theorem fits_one_iff {r g b : Nat} : fits r g b 1 = true ↔ max r (max g b) ≤ 255 := by
  rw [fits_iff]
  omega

theorem fits_two_iff {r g b : Nat} : fits r g b 2 = true ↔ max r (max g b) ≤ 510 := by
  rw [fits_iff]
  omega

theorem fits_four_iff {r g b : Nat} : fits r g b 4 = true ↔ max r (max g b) ≤ 1021 := by
  rw [fits_iff]
  omega

theorem encodeRecord_brightness (r g b : Nat) : (encodeRecord r g b).brightness = brightnessByte (multiplier r g b) := rfl

/-! ### LIMIT and the channel bytes (R150 to R152) -/

/-- Equal N, K and channel bytes give equal estimates. -/
theorem estimate_congr {s t : State} (hled : s.ledCount = t.ledCount) (hcur : s.curPerCh = t.curPerCh)
    (hchannels : ∀ i < s.count, (s.record i).b = (t.record i).b ∧ (s.record i).g = (t.record i).g ∧
      (s.record i).r = (t.record i).r) : s.estimate = t.estimate := by
  have hcount : s.count = t.count := congrArg BitVec.toNat hled
  have hsum : s.channelSum = t.channelSum := by
    rw [State.channelSum, State.channelSum, ← hcount]
    refine sumBelow_congr fun i hi => ?_
    obtain ⟨hb, hg, hr⟩ := hchannels i hi
    rw [Record.channelSum, Record.channelSum, hb, hg, hr]
  rw [State.estimate, State.estimate, hcur, hsum]

theorem exceeds_congr {s t : State} (hbud : s.budget = t.budget) (hest : s.estimate = t.estimate) :
    s.exceeds = t.exceeds := by
  rw [State.exceeds, State.exceeds, hbud, hest]

/-- Two buffers of one estimate that agree in a byte agree in it after LIMIT. -/
theorem limitBuffer_wireByte_congr {s t : State} (hws : Memory.wf 0 s.wb = true) (hwt : Memory.wf 0 t.wb = true)
    (hled : s.ledCount = t.ledCount) (hbud : s.budget = t.budget) (hest : s.estimate = t.estimate) {j : Nat}
    (hj : s.wireByte j = t.wireByte j) : (limitBuffer s).wireByte j = (limitBuffer t).wireByte j := by
  have hcount : s.count = t.count := congrArg BitVec.toNat hled
  rw [limitBuffer_wireByte s hws, limitBuffer_wireByte t hwt, exceeds_congr hbud hest, hcount, hbud, hest, hj]

/-! ### RENDER and FRAME -/

/-- A byte of record `i`, by its place in the record (10_state.md R32). -/
theorem wireByte_eq_record (s : State) (i : Nat) {k : Nat} (hk : k < 4) :
    s.wireByte (4 + 4 * i + k) = (s.record i).bytes.getD k 0 := by
  interval_cases k <;> rfl

/-- What RENDER packs depends on N and the pixels only (R173). -/
theorem renderBuffer_wb_congr {s t : State} (hled : t.ledCount = s.ledCount) (hpix : t.pix = s.pix) :
    (renderBuffer t).wb = (renderBuffer s).wb := by
  have hrecords : t.renderedRecords = s.renderedRecords := by
    simp only [State.renderedRecords, State.count, State.pixel, hled, hpix]
  exact congrArg (fun rs => Memory.ofList 0 0 (packFrame rs)) hrecords

/-- A white pixel is a record of ones (R177). -/
theorem renderRecord_white : renderRecord ⟨255, 255, 255⟩ = ⟨0xFF, 0xFF, 0xFF, 0xFF⟩ := by
  decide

/-- With every pixel white RENDER leaves ones in the records and zeros around them. -/
theorem renderBuffer_wireByte_of_white {s : State} (hwhite : ∀ i < s.count, s.pixel i = ⟨255, 255, 255⟩) (j : Nat) :
    (renderBuffer s).wireByte j = if 4 ≤ j ∧ j < 4 + 4 * s.count then 0xFF#8 else 0x00#8 := by
  split_ifs with hj
  · obtain ⟨i, k, hi, hk, rfl⟩ : ∃ i k, i < s.count ∧ k < 4 ∧ j = 4 + 4 * i + k :=
      ⟨(j - 4) / 4, (j - 4) % 4, by omega, by omega, by omega⟩
    rw [wireByte_eq_record _ i hk, renderBuffer_record s i hi, hwhite i hi, renderRecord_white]
    interval_cases k <;> rfl
  · exact renderBuffer_zero s j (by omega)

theorem renderBuffer_noError (s : State) : (renderBuffer s).noError = s.noError :=
  noErrorBits_congr fun k hk => (renderBuffer_getLsbD s k).trans (if_neg (by omega))

theorem limitBuffer_noError (s : State) : (limitBuffer s).noError = s.noError :=
  noErrorBits_congr fun k hk => (limitBuffer_getLsbD s k).trans (if_neg (by omega))

/-- A rendered buffer is ready when no error bit is set (70_reset_and_hazards.md R232). -/
theorem renderBuffer_frameReady {s : State} (h : s.noError = true) : (renderBuffer s).frameReady = true := by
  rw [State.frameReady, renderBuffer_frameValid, renderBuffer_noError, h]
  rfl

theorem limitBuffer_frameReady (s : State) : (limitBuffer s).frameReady = s.frameReady := by
  rw [State.frameReady, limitBuffer_frameValid, limitBuffer_noError, State.frameReady]

/-! ### The obligations -/

/-- Settles O16: which multipliers fit is a bound on the largest lightness. -/
theorem multiplierDependsOnTheLargestLightness : Obligations.MultiplierDependsOnTheLargestLightness := by
  unfold Obligations.MultiplierDependsOnTheLargestLightness
  intro r g b _ _ _ lmax
  simp only [encodeRecord_brightness, multiplier_eq_ite, fits_one_iff, fits_two_iff, fits_four_iff]
  refine ⟨fun h => ?_, fun hlo hhi => ?_, fun hlo hhi => ?_, fun hlo => ?_⟩
  · rw [if_pos h]; exact ⟨rfl, rfl⟩
  · rw [if_neg (by omega), if_pos hhi]; exact ⟨rfl, rfl⟩
  · rw [if_neg (by omega), if_neg (by omega), if_pos hhi]; exact ⟨rfl, rfl⟩
  · rw [if_neg (by omega), if_neg (by omega), if_neg (by omega)]; exact ⟨rfl, rfl⟩

/-- Settles O21: equal channel bytes give equal estimates, and then LIMIT does the same to every equal byte. -/
theorem estimateIgnoresBrightness : Obligations.EstimateIgnoresBrightness := by
  unfold Obligations.EstimateIgnoresBrightness
  intro s t hws hwt hled hcur hbud hchannels
  have hcount : s.count = t.count := congrArg BitVec.toNat hled
  have hest := estimate_congr hled hcur hchannels
  have hbyte {j : Nat} := limitBuffer_wireByte_congr (j := j) hws hwt hled hbud hest
  refine ⟨limitBuffer s, limitBuffer t, rfl, rfl, ?_, ?_, fun i hi => ?_⟩
  · rw [limitBuffer_limited, limitBuffer_limited, exceeds_congr hbud hest]
  · rw [limitBuffer_limited, exceeds_iff, hest, estimate_eq_sum t, ← hcount, ← hcur]
    exact and_congr_left' (BitVec.toNat_ne_iff_ne (y := 0#32))
  · obtain ⟨hb, hg, hr⟩ := hchannels i hi
    exact ⟨hbyte hb, hbyte hg, hbyte hr, limitBuffer_brightness hws i, limitBuffer_brightness hwt i⟩

/-- Settles O24: FRAME is LIMIT on RENDER's buffer, which raises no byte and writes channel bytes only. -/
theorem frameWritesOnlyTheBufferAndItsFlags : Obligations.FrameWritesOnlyTheBufferAndItsFlags := by
  unfold Obligations.FrameWritesOnlyTheBufferAndItsFlags
  intro s
  have hw := renderBuffer_wf s
  refine ⟨renderBuffer s, limitBuffer (renderBuffer s), rfl, execFrame_eq s, limitBuffer_eq_with (renderBuffer s),
    fun k _ hk => ?_, fun j hj => ?_, fun i _ => ?_⟩
  · rw [limitBuffer_getLsbD, if_neg hk, renderBuffer_getLsbD]
  · rw [limitBuffer_other _ hw j (hj.imp_right .inr)]
    exact renderBuffer_zero s j hj
  · exact ⟨limitBuffer_brightness hw i, limitBuffer_le _ hw _, limitBuffer_le _ hw _, limitBuffer_le _ hw _⟩

/-- Settles O25: with BUDGET 0 FRAME leaves RENDER's bytes, and a white pixel is a record of ones. -/
theorem whiteFrameIsAllOnes : Obligations.WhiteFrameIsAllOnes := by
  unfold Obligations.WhiteFrameIsAllOnes
  intro s hbud hwhite
  have hwb : (limitBuffer (renderBuffer s)).wb = (renderBuffer s).wb := limitBuffer_wb_of_budget_zero hbud
  exact ⟨limitBuffer (renderBuffer s), execFrame_eq s, fun j =>
    (wireByte_congr hwb j).trans (renderBuffer_wireByte_of_white hwhite j)⟩

/-- Settles O26: neither LIMIT nor RENDER writes what RENDER reads. -/
theorem renderUndoesLimit : Obligations.RenderUndoesLimit := by
  unfold Obligations.RenderUndoesLimit
  intro s t u v hlimit hu hv
  obtain ⟨_, _, _, hled, hpix⟩ := exec_frame hlimit
  cases hu
  cases hv
  exact ⟨renderBuffer_wb_congr hled hpix, _, rfl, renderBuffer_wb_congr rfl rfl⟩

/-- Settles O27: RENDER sets FRAME_VALID, LIMIT keeps it, and neither writes an error bit. -/
theorem frameMakesTheBufferReady : Obligations.FrameMakesTheBufferReady := by
  unfold Obligations.FrameMakesTheBufferReady
  intro s hs
  have hready := renderBuffer_frameReady hs
  exact ⟨⟨_, execFrame_eq s, (limitBuffer_frameReady _).trans hready⟩, _, rfl, hready⟩

end Sys2Proof.Machine

/-! MIN_FRAME_INTERVAL (00_scope.md R6, 70_reset_and_hazards.md R245): no command, access or step reads it. -/

namespace Sys2Proof.Machine

/-- The block with another MIN_FRAME_INTERVAL. -/
def State.withInterval (x : Nat) (s : State) : State := { s with cfg := { s.cfg with minFrameInterval := x } }

/-! ### Commands -/

theorem limitBuffer_withInterval (x : Nat) (s : State) :
    limitBuffer (s.withInterval x) = (limitBuffer s).withInterval x := by
  have he : (s.withInterval x).exceeds = s.exceeds := rfl
  unfold limitBuffer
  rw [he]
  split <;> rfl

theorem exec_withInterval (x : Nat) {i : Instr} {s t : State} (h : exec i s = .next t) :
    exec i (s.withInterval x) = .next (t.withInterval x) := by
  cases i with
  | nop => cases h; rfl
  | remap => exact exec_remap_comm (State.withInterval x) rfl (fun _ => rfl) (fun _ => rfl) h
  | encode => exact exec_encode_comm (State.withInterval x) rfl (fun _ => rfl) (fun _ => rfl) h
  | limit => cases h; exact congrArg Host.Outcome.next (limitBuffer_withInterval x s)
  | render => cases h; rfl
  | frame =>
    have hs : execFrame s = .next t := h
    rw [execFrame_eq] at hs
    cases hs
    exact (execFrame_eq _).trans (congrArg Host.Outcome.next (limitBuffer_withInterval x (renderBuffer s)))

/-! ### Registers -/

theorem readReg_withInterval (x : Nat) (r : Reg) (s : State) : readReg r (s.withInterval x) = readReg r s := by
  cases r <;> rfl

theorem read32Value_withInterval (x : Nat) (addr : Word) (s : State) :
    read32Value addr (s.withInterval x) = read32Value addr s := by
  unfold read32Value
  simp only [readReg_withInterval]
  rfl

theorem writeLedCount_withInterval (x : Nat) (v : Word) (s : State) :
    writeLedCount v (s.withInterval x) = (writeLedCount v s).withInterval x := by
  rcases Nat.lt_or_ge s.cfg.nmax.val v.toNat with hgt | hle
  · rw [writeLedCount_of_gt hgt, writeLedCount_of_gt (s := s.withInterval x) hgt]; rfl
  by_cases heq : v = s.ledCount
  · rw [writeLedCount_of_eq hle heq, writeLedCount_of_eq (s := s.withInterval x) hle heq]
  · rw [writeLedCount_of_ne hle heq, writeLedCount_of_ne (s := s.withInterval x) hle heq]; rfl

theorem performCommand_withInterval (x : Nat) {v : Word} {s t : State} (h : performCommand v s = .next t) :
    performCommand v (s.withInterval x) = .next (t.withInterval x) := by
  cases hd : decode v with
  | command i =>
    rw [performCommand_of_command hd] at h ⊢
    exact exec_withInterval x h
  | reject r =>
    rw [performCommand_of_reject hd] at h ⊢
    cases h
    rfl

theorem writeReg_withInterval (x : Nat) {r : Reg} {v : Word} {s t : State} (h : writeReg r v s = .next t) :
    writeReg r v (s.withInterval x) = .next (t.withInterval x) := by
  cases r with
  | cmd => exact performCommand_withInterval x h
  | ledCount => cases h; exact congrArg Host.Outcome.next (writeLedCount_withInterval x v s)
  | _ => cases h; rfl

/-! ### Accesses and the step -/

/-- A 32-bit write that hits no register and no pixel. -/
theorem perform_write32_of_refused {addr : Word} {s : State} (v : Word) (hreg : ∀ r : Reg, addr ≠ r.offset)
    (hpix : ∀ i < s.count, addr.toNat ≠ 0x00010000 + 4 * i) :
    perform (.write32 addr v) s = .next (raise (.busError addr) s) := by
  simp only [perform, write32, regAt_eq_none.2 hreg, pixelAt_eq_none.2 hpix]

theorem perform_withInterval (x : Nat) {a : Access} {s t : State} (h : perform a s = .next t) :
    perform a (s.withInterval x) = .next (t.withInterval x) := by
  cases a with
  | read8 addr =>
    cases hv : read8Value addr s with
    | some v =>
      rw [perform_read8_of_some hv] at h
      cases h
      exact perform_read8_of_some (s := s.withInterval x) hv
    | none =>
      rw [perform_read8_of_none hv] at h
      cases h
      exact perform_read8_of_none (s := s.withInterval x) hv
  | read32 addr =>
    have hsame := read32Value_withInterval x addr s
    cases hv : read32Value addr s with
    | some v =>
      rw [perform_read32_of_some hv] at h
      cases h
      exact perform_read32_of_some (hsame.trans hv)
    | none =>
      rw [perform_read32_of_none hv] at h
      cases h
      exact perform_read32_of_none (hsame.trans hv)
  | write8 addr v => cases h; rfl
  | write32 addr v =>
    rcases perform_write32 addr v s with ⟨r, rfl, hp⟩ | ⟨i, hi, ha, hp⟩ | ⟨hreg, hpix, hp⟩
    · rw [perform_write32_reg] at h ⊢
      exact writeReg_withInterval x h
    · rw [hp] at h
      cases h
      exact perform_write32_pixel (s := s.withInterval x) v hi ha
    · rw [hp] at h
      cases h
      exact perform_write32_of_refused (s := s.withInterval x) v hreg hpix

theorem step_withInterval (x : Nat) {s t : State} (h : step s = .next t) :
    step (s.withInterval x) = .next (t.withInterval x) := by
  cases hp : s.pending with
  | nil =>
    rw [step_of_pending_nil hp] at h
    cases h
    exact step_of_pending_nil (s := s.withInterval x) hp
  | cons e rest =>
    rw [step_of_pending_cons hp] at h
    rw [step_of_pending_cons (s := s.withInterval x) hp]
    cases e with
    | reset => cases h; rfl
    | access a => exact perform_withInterval x (s := s.setPending rest) h

/-! ### The obligation -/

/-- Settles O50, by the accesses, the registers and the commands, none of which reads the interval. -/
theorem frameIntervalHasNoEffect : Obligations.FrameIntervalHasNoEffect := by
  unfold Obligations.FrameIntervalHasNoEffect
  exact fun s t x => step_withInterval x

end Sys2Proof.Machine

/-! The lines of a host program (30_encoding.md R99, R100): the transactions each stands for. -/

namespace Sys2Proof.Machine

/-- A PIXW line widens its 24-bit pixel with zeros (20_memory.md R64). -/
theorem expand_pixw (i : Nat) (rgb : BitVec 24) :
    (Line.pixw i rgb).expand = [.write32 (BitVec.ofNat 32 (0x00010000 + 4 * i)) (0#8 ++ rgb)] := by
  have hwiden : rgb.setWidth 32 = 0#8 ++ rgb := BitVec.setWidth_eq_append (by decide)
  rw [← hwiden]
  rfl

/-- Settles O51: the expansions line by line, and for a command line the word of each command. -/
theorem linesExpandToTheirTransactions : Obligations.LinesExpandToTheirTransactions := by
  unfold Obligations.LinesExpandToTheirTransactions
  refine ⟨fun _ _ => ⟨rfl, rfl⟩, ⟨rfl, rfl, rfl, rfl, rfl, rfl, rfl, rfl, rfl, rfl⟩,
    fun rgb i _ => ⟨expand_pixw i rgb, rfl, rfl, rfl⟩, fun i => ?_, fun _ _ _ => ⟨rfl, rfl, rfl, rfl, rfl, rfl⟩⟩
  cases i <;> rfl

end Sys2Proof.Machine
